-- ==== Sys2Proof/Word.lean ====
section
/-! DEFINITION. The two word types of the engine: a byte (memory cell, register, opcode, operand;
`00_scope.md` R8) and the index of one of the eight registers (`10_state.md` R21). -/

namespace Sys2Proof

/-- A memory cell, a register value, an opcode or an operand: unsigned, 8 bits (`00_scope.md` R8). -/
abbrev Byte := BitVec 8

/-- The index of a register that exists, 0..7 (`10_state.md` R21). -/
abbrev RegIndex := Fin 8

end Sys2Proof
end

