-- ==== Sys2Proof/Syntax.lean ====
section
/-! DEFINITION. The 20 instructions of `30_encoding.md` R84: their names and their syntax. A register
operand is the WHOLE operand byte: a value above 7 is an instruction too, one that raises AddressError
when it runs (`30_encoding.md` R82, R87). -/

namespace Sys2Proof

/-- The 20 mnemonics, in the order of the handler table (`30_encoding.md` R84). -/
inductive Mnemonic where
  | hlt | ldi | prn
  | add | mul | mod | and | or | xor | shl | shr
  | not
  | push | pop | call | ret
  | cmp
  | jmp | jeq | jne
  deriving DecidableEq, Repr

/-- One instruction: its mnemonic with the operand bytes its format gives it (`30_encoding.md` R81).
`a` is operand A, `b` operand B, `imm` the immediate of LDI. -/
inductive Instr where
  | hlt
  | ldi (a imm : Byte)
  | prn (a : Byte)
  | add (a b : Byte)
  | mul (a b : Byte)
  | mod (a b : Byte)
  | and (a b : Byte)
  | or (a b : Byte)
  | xor (a b : Byte)
  | shl (a b : Byte)
  | shr (a b : Byte)
  | not (a : Byte)
  | push (a : Byte)
  | pop (a : Byte)
  | call (a : Byte)
  | ret
  | cmp (a b : Byte)
  | jmp (a : Byte)
  | jeq (a : Byte)
  | jne (a : Byte)
  deriving DecidableEq, Repr

/-- The mnemonic of an instruction. -/
def Instr.mnemonic : Instr → Mnemonic
  | .hlt => .hlt
  | .ldi _ _ => .ldi
  | .prn _ => .prn
  | .add _ _ => .add
  | .mul _ _ => .mul
  | .mod _ _ => .mod
  | .and _ _ => .and
  | .or _ _ => .or
  | .xor _ _ => .xor
  | .shl _ _ => .shl
  | .shr _ _ => .shr
  | .not _ => .not
  | .push _ => .push
  | .pop _ => .pop
  | .call _ => .call
  | .ret => .ret
  | .cmp _ _ => .cmp
  | .jmp _ => .jmp
  | .jeq _ => .jeq
  | .jne _ => .jne

end Sys2Proof
end

