-- ==== Sys2Proof/Config.lean ====
section
/-! DEFINITION. The parameters of the engine (`00_scope.md` R7). The two OPEN ones, OPCODE_MAP and
MEM_INIT, are the fields of the record `Config`, which the decoder, the encoder, the step and the reset
take as an argument; the values this hardware uses by default are `Config.engine` (Sys2Proof/Decode.lean).
The fixed ones are constants, the same for every `Config`. -/

namespace Sys2Proof

/-- The open parameters of the engine (`00_scope.md` R7). -/
structure Config where
  /-- OPCODE_MAP: the opcode byte of each mnemonic (`30_encoding.md` R84, `92_eei_decisions.md` D1). -/
  opcodeMap : Mnemonic → Byte
  /-- MEM_INIT: what each memory cell holds at reset, before the load (`10_state.md` R36, D9). -/
  memInit : Nat → Byte

namespace Config

/-- The one property assumed of OPCODE_MAP: it is injective (`30_encoding.md` R84, R250 `LP_OPMAP`). -/
def OpcodeInjective (c : Config) : Prop :=
  ∀ m n : Mnemonic, c.opcodeMap m = c.opcodeMap n → m = n

/-- MEM_SIZE: 256 cells, addresses 0..255 (`20_memory.md` R50). -/
@[simp] abbrev memSize : Nat := 256

/-- NREG: 8 registers (`10_state.md` R21). -/
@[simp] abbrev nReg : Nat := 8

/-- SP_INDEX: the stack pointer is register 7 (`10_state.md` R24). -/
@[simp] abbrev spIndex : RegIndex := 7

/-- SP_RESET: the stack pointer's value at reset (`10_state.md` R36). -/
@[simp] abbrev spReset : Byte := 0xF4

/-- PC_RESET: the program counter's value at reset (`10_state.md` R36). -/
@[simp] abbrev pcReset : Nat := 0

/-- LOAD_BASE: the address of the first byte of the image (`20_memory.md` R63). -/
@[simp] abbrev loadBase : Nat := 0

end Config

end Sys2Proof
end

