-- ==== Sys2Proof/WellFormed.lean ====
section
/-! DEFINITION. Well-formed instructions: every register operand names a register that exists, 0..7
(`30_encoding.md` R82, R87). An ill-formed instruction still decodes, and raises AddressError(reg, k) when
it runs; nothing here is a condition of decoding. -/

namespace Sys2Proof

/-- The operand bytes that the format designates as register indices, in the order in which they are
checked: operand A, then operand B (`30_encoding.md` R81, R87). The immediate of LDI is not one. -/
def Instr.regOperands : Instr → List Byte
  | .hlt => []
  | .ldi a _ => [a]
  | .prn a => [a]
  | .add a b => [a, b]
  | .mul a b => [a, b]
  | .mod a b => [a, b]
  | .and a b => [a, b]
  | .or a b => [a, b]
  | .xor a b => [a, b]
  | .shl a b => [a, b]
  | .shr a b => [a, b]
  | .not a => [a]
  | .push a => [a]
  | .pop a => [a]
  | .call a => [a]
  | .ret => []
  | .cmp a b => [a, b]
  | .jmp a => [a]
  | .jeq a => [a]
  | .jne a => [a]

/-- A byte names a register when it is 0..7 (`30_encoding.md` R82). -/
def namesRegister (k : Byte) : Bool := decide (k.toNat < 8)

/-- Every register operand names a register. -/
def Instr.wellFormed (i : Instr) : Bool := i.regOperands.all namesRegister

end Sys2Proof
end

