-- ==== Sys2Proof/Decode.lean ====
section
/-! DEFINITION. The encoding of `30_encoding.md`: formats and lengths (R81, R83), the default opcode values
(R84), the decoder (R86, R92) and, after it, the encoder. Decoding is a table lookup on the opcode byte;
no bit of it is looked at by itself (R80, R83, R85). -/

namespace Sys2Proof

/-- The four formats (`30_encoding.md` R81). -/
inductive Format where
  | op0 | op1R | op2RR | op2RI
  deriving DecidableEq, Repr

/-- The length of an instruction of a format, in bytes (`30_encoding.md` R81). -/
def Format.length : Format → Nat
  | .op0 => 1
  | .op1R => 2
  | .op2RR => 3
  | .op2RI => 3

/-- The format of each mnemonic (`30_encoding.md` R84). -/
def Mnemonic.format : Mnemonic → Format
  | .hlt => .op0
  | .ldi => .op2RI
  | .prn => .op1R
  | .add => .op2RR
  | .mul => .op2RR
  | .mod => .op2RR
  | .and => .op2RR
  | .or => .op2RR
  | .xor => .op2RR
  | .shl => .op2RR
  | .shr => .op2RR
  | .not => .op1R
  | .push => .op1R
  | .pop => .op1R
  | .call => .op1R
  | .ret => .op0
  | .cmp => .op2RR
  | .jmp => .op1R
  | .jeq => .op1R
  | .jne => .op1R

/-- The number of bytes an instruction occupies, from the table alone (`30_encoding.md` R83). -/
def Mnemonic.length (m : Mnemonic) : Nat := m.format.length

/-- Every mnemonic, once (`30_encoding.md` R84). -/
def Mnemonic.all : List Mnemonic :=
  [.hlt, .ldi, .prn, .add, .mul, .mod, .and, .or, .xor, .shl] ++
  [.shr, .not, .push, .pop, .call, .ret, .cmp, .jmp, .jeq, .jne]

/-- PRESUMED (log 1): the default OPCODE_MAP, the LS-8 values that `30_encoding.md` R84 gives and marks as
general knowledge (D1). -/
def defaultOpcode : Mnemonic → Byte
  | .hlt => 0x01
  | .ldi => 0x82
  | .prn => 0x47
  | .add => 0xA0
  | .mul => 0xA2
  | .mod => 0xA4
  | .and => 0xA8
  | .or => 0xAA
  | .xor => 0xAB
  | .shl => 0xAC
  | .shr => 0xAD
  | .not => 0x69
  | .push => 0x45
  | .pop => 0x46
  | .call => 0x50
  | .ret => 0x11
  | .cmp => 0xA7
  | .jmp => 0x54
  | .jeq => 0x55
  | .jne => 0x56

/-- The parameters at their defaults: the OPCODE_MAP of R84 and a MEM_INIT of zeros
(`00_scope.md` R7; log 1, log 2). -/
def Config.engine : Config where
  opcodeMap := defaultOpcode
  memInit := fun _ => 0

/-- Why a sequence of bytes is no instruction. -/
inductive DecodeError where
  /-- The first byte is not in the image of OPCODE_MAP (`30_encoding.md` R86). -/
  | unknownOpcode (op : Byte)
  /-- The bytes end before the instruction does. -/
  | truncated
  deriving DecidableEq, Repr

/-- The Dispatch Table read backwards: the mnemonic whose opcode a byte is, if there is one
(`30_encoding.md` R86, R92; `40_execution_cycle.md` R117). -/
def lookup (c : Config) (op : Byte) : Option Mnemonic :=
  Mnemonic.all.find? fun m => c.opcodeMap m == op

/-- The instruction of a mnemonic and the two operand bytes after its opcode. A format with fewer operands
ignores the rest (`30_encoding.md` R88, R92). -/
def assemble (m : Mnemonic) (a b : Byte) : Instr :=
  match m with
  | .hlt => .hlt
  | .ldi => .ldi a b
  | .prn => .prn a
  | .add => .add a b
  | .mul => .mul a b
  | .mod => .mod a b
  | .and => .and a b
  | .or => .or a b
  | .xor => .xor a b
  | .shl => .shl a b
  | .shr => .shr a b
  | .not => .not a
  | .push => .push a
  | .pop => .pop a
  | .call => .call a
  | .ret => .ret
  | .cmp => .cmp a b
  | .jmp => .jmp a
  | .jeq => .jeq a
  | .jne => .jne a

/-- The decoder on a sequence of bytes: the instruction at its front and the bytes after it, or the reason
there is none (`30_encoding.md` R86, R92). It reads the instruction's own bytes and no more; the two-byte
prefetch is the step's affair (Sys2Proof/Machine/Fetch.lean). -/
def decode (c : Config) : List Byte → Except DecodeError (Instr × List Byte)
  | [] => .error .truncated
  | op :: rest =>
    match lookup c op with
    | none => .error (.unknownOpcode op)
    | some m =>
      match m.format, rest with
      | .op0, rest => .ok (assemble m 0 0, rest)
      | .op1R, a :: rest => .ok (assemble m a 0, rest)
      | .op1R, [] => .error .truncated
      | .op2RR, a :: b :: rest => .ok (assemble m a b, rest)
      | .op2RR, [_] => .error .truncated
      | .op2RR, [] => .error .truncated
      | .op2RI, a :: b :: rest => .ok (assemble m a b, rest)
      | .op2RI, [_] => .error .truncated
      | .op2RI, [] => .error .truncated

/-- The encoder: the bytes of an instruction, opcode first, at ascending addresses
(`30_encoding.md` R80, R92). -/
def encode (c : Config) : Instr → List Byte
  | .hlt => [c.opcodeMap .hlt]
  | .ldi a imm => [c.opcodeMap .ldi, a, imm]
  | .prn a => [c.opcodeMap .prn, a]
  | .add a b => [c.opcodeMap .add, a, b]
  | .mul a b => [c.opcodeMap .mul, a, b]
  | .mod a b => [c.opcodeMap .mod, a, b]
  | .and a b => [c.opcodeMap .and, a, b]
  | .or a b => [c.opcodeMap .or, a, b]
  | .xor a b => [c.opcodeMap .xor, a, b]
  | .shl a b => [c.opcodeMap .shl, a, b]
  | .shr a b => [c.opcodeMap .shr, a, b]
  | .not a => [c.opcodeMap .not, a]
  | .push a => [c.opcodeMap .push, a]
  | .pop a => [c.opcodeMap .pop, a]
  | .call a => [c.opcodeMap .call, a]
  | .ret => [c.opcodeMap .ret]
  | .cmp a b => [c.opcodeMap .cmp, a, b]
  | .jmp a => [c.opcodeMap .jmp, a]
  | .jeq a => [c.opcodeMap .jeq, a]
  | .jne a => [c.opcodeMap .jne, a]

/-- The three bytes of an instruction whose bits, `nbits` of them, are `w`: bit 0 is the least significant
bit of the first byte, and every bit above `nbits` is 0 (the numbering of `spec/opcode_table.json`). -/
def tableBytes (nbits w : Nat) : List Byte :=
  let v := w % 2 ^ nbits
  [BitVec.ofNat 8 v, BitVec.ofNat 8 (v / 2 ^ 8), BitVec.ofNat 8 (v / 2 ^ 16)]

/-- The instruction that the decoder reads from a word numbered as `spec/opcode_table.json` numbers it. -/
def decodeTableWord (nbits w : Nat) : Option Instr :=
  match decode Config.engine (tableBytes nbits w) with
  | .ok (i, _) => some i
  | .error _ => none

/-- A register operand as the assembly text writes it (`30_encoding.md` R90). -/
def spellReg (k : Byte) : String := "R" ++ toString k.toNat

/-- The assembly text of an instruction, mnemonic in capitals and destination first (`30_encoding.md` R90,
D23: a spelling for the reader only). -/
def Instr.spelling : Instr → String
  | .hlt => "HLT"
  | .ldi a imm => "LDI " ++ spellReg a ++ "," ++ toString imm.toNat
  | .prn a => "PRN " ++ spellReg a
  | .add a b => "ADD " ++ spellReg a ++ "," ++ spellReg b
  | .mul a b => "MUL " ++ spellReg a ++ "," ++ spellReg b
  | .mod a b => "MOD " ++ spellReg a ++ "," ++ spellReg b
  | .and a b => "AND " ++ spellReg a ++ "," ++ spellReg b
  | .or a b => "OR " ++ spellReg a ++ "," ++ spellReg b
  | .xor a b => "XOR " ++ spellReg a ++ "," ++ spellReg b
  | .shl a b => "SHL " ++ spellReg a ++ "," ++ spellReg b
  | .shr a b => "SHR " ++ spellReg a ++ "," ++ spellReg b
  | .not a => "NOT " ++ spellReg a
  | .push a => "PUSH " ++ spellReg a
  | .pop a => "POP " ++ spellReg a
  | .call a => "CALL " ++ spellReg a
  | .ret => "RET"
  | .cmp a b => "CMP " ++ spellReg a ++ "," ++ spellReg b
  | .jmp a => "JMP " ++ spellReg a
  | .jeq a => "JEQ " ++ spellReg a
  | .jne a => "JNE " ++ spellReg a

end Sys2Proof
end

