-- ==== Sys2Proof/Machine/State.lean ====
section
/-! DEFINITION. The state of the engine, all of it: the tuple (M, x, pc, FL, RS, FR) and the output log OUT
(`10_state.md` R20), as plain data, with its value after reset (R36) and the reasons a step or a host call
can be turned away. -/

namespace Sys2Proof.Machine

/-- The Flags Register FL (`10_state.md` R27): the outcome of the latest comparison, or none yet. -/
inductive Flags where
  | none | equal | greater | less
  deriving DecidableEq, Repr

/-- The run state RS (`10_state.md` R29). The document's running flag is `running`; its HALTED is the last
two together. -/
inductive RunState where
  | idle | running | haltedOk | haltedFault
  deriving DecidableEq, Repr

/-- The cause a fault record names (`60_exceptions.md` R200). -/
inductive Cause where
  | unknownOpcode | divisionByZero | unsupportedOperation | addressError
  deriving DecidableEq, Repr

/-- The cause-specific value of a fault record (`60_exceptions.md` R200 to R204). -/
inductive FaultInfo where
  /-- UnknownOpcode: the byte fetched at `pc`. -/
  | opcode (op : Byte)
  /-- DivisionByZero: the index of the divisor register. -/
  | divisor (r : RegIndex)
  /-- UnsupportedOperation: nothing. -/
  | empty
  /-- AddressError(mem, address): the address, which may be -1 or 256 and above. -/
  | mem (address : Int)
  /-- AddressError(reg, index): the operand byte, 8..255. -/
  | reg (index : Byte)
  deriving DecidableEq, Repr

/-- The trace that UnknownOpcode records (`60_exceptions.md` R207): `pc`, the three bytes from `pc` on
(`m1`, `m2` absent beyond address 255) and the eight registers. -/
structure Trace where
  pc : Nat
  m0 : Byte
  m1 : Option Byte
  m2 : Option Byte
  regs : Vector Byte 8
  deriving DecidableEq, Repr

/-- The fault record FR (`10_state.md` R30). -/
structure FaultRecord where
  cause : Cause
  /-- `pc` at the start of the faulting step. -/
  addr : Nat
  info : FaultInfo
  /-- Present for UnknownOpcode only. -/
  trace : Option Trace
  deriving DecidableEq, Repr

/-- The complete state of the engine (`10_state.md` R20). -/
structure State where
  /-- M, the 256 cells (`20_memory.md` R50): the cells that differ from 0x00, addresses strictly rising
  (`Memory.wf`). -/
  mem : List Host.Cell
  /-- x[0..7]; x[7] is the stack pointer (`10_state.md` R21, R24). -/
  regs : Vector Byte 8
  /-- The program counter, an integer 0..256 that does not wrap (`10_state.md` R25, R26; log 8). -/
  pc : Nat
  /-- FL (`10_state.md` R27). -/
  fl : Flags
  /-- RS (`10_state.md` R29). -/
  rs : RunState
  /-- FR (`10_state.md` R30); `none` is the empty record. -/
  fr : Option FaultRecord
  /-- OUT, oldest value first (`10_state.md` R34). -/
  out : List Byte
  deriving DecidableEq, Repr

/-- The reasons a step can stop WITHOUT a next state. There are none: every error of this engine is an
exception whose entry the spec describes (`60_exceptions.md` R206, `40_execution_cycle.md` R113), so a step
that raises one answers the next state HALTED_FAULT (log 4). Raised by nobody; safe. -/
inductive Fault where
  deriving DecidableEq, Repr

/-- The reasons a request is turned away. -/
inductive Refusal where
  /-- An instruction without a meaning, by its mnemonic. Raised by nobody: every arm of `exec` has its
  meaning. Safe. -/
  | notModelled (mnemonic : String)
  /-- Raised by the host's `load` outside IDLE (`20_memory.md` R63, D24). Safe: the spec has the interface
  refuse the call. -/
  | loadOutsideIdle
  /-- Raised by the host's `load` of an image of more than 256 bytes (`20_memory.md` R63, U14). Safe: the
  spec has the host refuse the image. -/
  | imageTooLong
  /-- Raised by the host's start outside IDLE (`70_reset_and_hazards.md` R246, D24). Safe: the spec has the
  interface refuse the call. -/
  | startOutsideIdle
  deriving DecidableEq, Repr

/-- What the host can do to the engine (`70_reset_and_hazards.md` R246). -/
inductive HostAction where
  | reset
  | load (bytes : List Byte)
  | start
  deriving DecidableEq, Repr

/-- The observable result of a run that has ended (`70_reset_and_hazards.md` R247): OUT, the exit status,
and FR if the status is 1. -/
structure Observation where
  out : List Byte
  exitStatus : Nat
  fault : Option FaultRecord
  deriving DecidableEq, Repr

/-- The state after reset (`10_state.md` R36), with the default MEM_INIT: every cell 0x00, so none listed
(log 2). `State.resetWith` (Sys2Proof/Machine/HostPort.lean) takes any MEM_INIT. -/
def State.reset : State where
  mem := []
  regs := #v[0, 0, 0, 0, 0, 0, 0, Config.spReset]
  pc := Config.pcReset
  fl := .none
  rs := .idle
  fr := none
  out := []

end Sys2Proof.Machine
end

