-- ==== Sys2Proof/Machine/Memory.lean ====
section
/-! DEFINITION. The memory as a list of cells in one canonical form: addresses strictly rising and below
256, and no entry that holds what an unlisted address reads as. -/

namespace Sys2Proof.Machine

/-- The cells of the memory that are listed. -/
abbrev Memory := List Host.Cell

/-- What an address that is not listed reads as: the default MEM_INIT, 0x00
(`10_state.md` R36, D9; DESIGN CHOICE, log 2). -/
def Memory.unlisted : Byte := 0

/-- M[a]: the byte at an address (`00_scope.md` R9). -/
def Memory.read : Memory → Nat → Byte
  | [], _ => Memory.unlisted
  | (k, u) :: rest, a => if k = a then u else Memory.read rest a

/-- The memory with nothing listed at an address. -/
def Memory.erase (m : Memory) (a : Nat) : Memory := m.filter fun cell => decide (cell.1 ≠ a)

/-- The memory with one more entry, at the place its address has in the rising order. -/
def Memory.insert : Memory → Nat → Byte → Memory
  | [], a, v => [(a, v)]
  | (k, u) :: rest, a, v => if a < k then (a, v) :: (k, u) :: rest else (k, u) :: Memory.insert rest a v

/-- M[a] <- v. The form stays canonical: writing the value an unlisted address reads as removes the
entry. -/
def Memory.write (m : Memory) (a : Nat) (v : Byte) : Memory :=
  if v = Memory.unlisted then m.erase a else (m.erase a).insert a v

/-- M[base], M[base + 1], ... <- the bytes in turn (`20_memory.md` R63). -/
def Memory.writeAll (m : Memory) (base : Nat) : List Byte → Memory
  | [] => m
  | v :: rest => (Memory.write m base v).writeAll (base + 1) rest

/-- The canonical form: addresses below 256 and strictly rising, no entry equal to an unlisted byte. -/
def Memory.wf : Memory → Bool
  | [] => true
  | (k, v) :: rest =>
    decide (k < Config.memSize) && decide (v ≠ Memory.unlisted) &&
      (rest.all fun cell => decide (k < cell.1)) && Memory.wf rest

end Sys2Proof.Machine
end

