-- ==== Sys2Proof/Machine/Ops.lean ====
section
/-! DEFINITION. The named operations every meaning is written with: the pseudocode primitives of
`00_scope.md` R9 over registers, memory, `pc` and OUT, the two moves of the stack pointer (`10_state.md`
R24), and TAKING AN EXCEPTION, the fatal abort of `60_exceptions.md` R206. There is no return from an
exception (`60_exceptions.md` R208), so no operation for one. -/

namespace Sys2Proof.Machine

/-- The answer of a step. -/
abbrev Result := Host.Outcome State Fault Refusal

/-- What `raise E(info)` carries (`60_exceptions.md` R200). -/
inductive Exc where
  | unknownOpcode (op : Byte)
  | divisionByZero (divisor : RegIndex)
  | unsupportedOperation
  | addressMem (address : Int)
  | addressReg (index : Byte)
  deriving DecidableEq, Repr

/-- The cause of an exception (`60_exceptions.md` R200). -/
def Exc.cause : Exc → Cause
  | .unknownOpcode _ => .unknownOpcode
  | .divisionByZero _ => .divisionByZero
  | .unsupportedOperation => .unsupportedOperation
  | .addressMem _ => .addressError
  | .addressReg _ => .addressError

/-- The cause-specific value of an exception (`60_exceptions.md` R200 to R204). -/
def Exc.info : Exc → FaultInfo
  | .unknownOpcode op => .opcode op
  | .divisionByZero r => .divisor r
  | .unsupportedOperation => .empty
  | .addressMem a => .mem a
  | .addressReg k => .reg k

/-- The numeric code of a cause (`60_exceptions.md` R200, D11). -/
def Cause.code : Cause → Nat
  | .unknownOpcode => 1
  | .divisionByZero => 2
  | .unsupportedOperation => 3
  | .addressError => 4

namespace State

/-- x[r] (`10_state.md` R21). -/
def getReg (s : State) (r : RegIndex) : Byte := s.regs[r]

/-- x[r] <- v (`10_state.md` R21). -/
def setReg (s : State) (r : RegIndex) (v : Byte) : State := { s with regs := s.regs.set r v }

/-- x[7], the stack pointer (`10_state.md` R24). -/
def sp (s : State) : Byte := s.getReg Config.spIndex

/-- x[7] <- v. -/
def setSp (s : State) (v : Byte) : State := s.setReg Config.spIndex v

/-- pc <- t (`10_state.md` R25). -/
def setPc (s : State) (t : Nat) : State := { s with pc := t }

/-- pc <- pc + n: past an instruction of n bytes (`40_execution_cycle.md` R112). No wrap (R26). -/
def advance (s : State) (n : Nat) : State := s.setPc (s.pc + n)

/-- FL <- f (`10_state.md` R27). -/
def setFl (s : State) (f : Flags) : State := { s with fl := f }

/-- RS <- r (`10_state.md` R29). -/
def setRs (s : State) (r : RunState) : State := { s with rs := r }

/-- emit(v): OUT gets v at its end (`10_state.md` R34). -/
def emit (s : State) (v : Byte) : State := { s with out := s.out ++ [v] }

/-- M[a] (`00_scope.md` R9). -/
def peek (s : State) (a : Nat) : Byte := Memory.read s.mem a

/-- M[a] <- v (`00_scope.md` R9). -/
def poke (s : State) (a : Nat) (v : Byte) : State := { s with mem := Memory.write s.mem a v }

/-- One byte of the trace: absent when the address exceeds 255 (`60_exceptions.md` R207). -/
def traceByte (s : State) (a : Nat) : Option Byte :=
  if a < Config.memSize then some (s.peek a) else none

/-- The trace of the state at the moment of the fault (`60_exceptions.md` R207; log 11). -/
def trace (s : State) : Trace where
  pc := s.pc
  m0 := s.peek s.pc
  m1 := s.traceByte (s.pc + 1)
  m2 := s.traceByte (s.pc + 2)
  regs := s.regs

/-- TAKING AN EXCEPTION: the abort sequence of `60_exceptions.md` R206, the same for every cause. FR is
written, RS becomes HALTED_FAULT, and nothing else changes. UnknownOpcode alone records the trace. -/
def takeException (s : State) (e : Exc) : State :=
  { s with
    rs := .haltedFault
    fr := some
      { cause := e.cause
        addr := s.pc
        info := e.info
        trace := if e.cause = .unknownOpcode then some s.trace else none } }

end State

/-- MemRead(a, 1), the checked read (`20_memory.md` R51). -/
def memRead (a : Int) (s : State) : Except Exc Byte :=
  if 0 ≤ a ∧ a < Config.memSize then .ok (s.peek a.toNat) else .error (.addressMem a)

/-- MemWrite(a, 1, v), the checked write (`20_memory.md` R51). -/
def memWrite (a : Int) (v : Byte) (s : State) : Except Exc State :=
  if 0 ≤ a ∧ a < Config.memSize then .ok (s.poke a.toNat v) else .error (.addressMem a)

/-- The implicit decrement of the stack pointer, of PUSH and CALL: from 0 it raises AddressError(mem, -1)
and does not wrap (`10_state.md` R24, D6). -/
def decrementSp (s : State) : Except Exc State :=
  if s.sp.toNat = 0 then .error (.addressMem (-1)) else .ok (s.setSp (BitVec.ofNat 8 (s.sp.toNat - 1)))

/-- The implicit increment of the stack pointer, of POP and RET: from 255 it raises AddressError(mem, 256)
and does not wrap (`10_state.md` R24, D6). -/
def incrementSp (s : State) : Except Exc State :=
  if s.sp.toNat = 255 then .error (.addressMem 256) else .ok (s.setSp (BitVec.ofNat 8 (s.sp.toNat + 1)))

/-- How an instruction that began in `s` ends: with the state its pseudocode reaches, or, if it raised, by
taking the exception IN `s`, so that everything the abandoned instruction did is undone
(`00_scope.md` R9 `raise`, `60_exceptions.md` R206). -/
def settle (s : State) : Except Exc State → Result
  | .ok t => .next t
  | .error e => .next (s.takeException e)

end Sys2Proof.Machine
end

