-- ==== Sys2Proof/Machine/Operands.lean ====
section
/-! DEFINITION. The operand forms of `30_encoding.md` R81, R82, R87: a register index, checked, and an
immediate; and the width law's truncation (`42_alu.md` R141). The engine has no other form: no address, no
offset and no memory operand stands in an encoding. -/

namespace Sys2Proof.Machine

/-- reg(k): the operand byte as a register index; above 7 it raises AddressError(reg, k), whatever the
instruction would go on to do (`30_encoding.md` R87, D4). -/
def reg (k : Byte) : Except Exc RegIndex :=
  if h : k.toNat < 8 then .ok ⟨k.toNat, h⟩ else .error (.addressReg k)

/-- zext_8(b): the immediate operand, the byte itself (`30_encoding.md` R82). -/
def zext8 (b : Byte) : Byte := b

/-- trunc8(v) = v mod 256, as a byte (`00_scope.md` R8). -/
def trunc8 (v : Nat) : Byte := BitVec.ofNat 8 v

end Sys2Proof.Machine
end

