-- ==== Sys2Proof/Machine/Flags.lean ====
section
/-! DEFINITION. Every computation over the Flags Register: the comparison that writes it (`42_alu.md` R151),
the test that reads it (`44_control_transfer.md` R183, R184, R188), and its byte layout (`10_state.md`
R28). -/

namespace Sys2Proof.Machine

/-- What CMP leaves in FL, by the unsigned order of the two values (`42_alu.md` R151, D21). -/
def compareFlags (va vb : Byte) : Flags :=
  if va.toNat = vb.toNat then .equal
  else if va.toNat > vb.toNat then .greater
  else .less

/-- The one test any instruction makes of FL: is it EQUAL (`10_state.md` R27, `44_control_transfer.md`
R188). -/
def Flags.isEqual : Flags → Bool
  | .equal => true
  | .none => false
  | .greater => false
  | .less => false

/-- FL as a byte, 0b00000LGE (`10_state.md` R28, D10; log 10). No instruction can observe it. -/
def Flags.toByte : Flags → Byte
  | .none => 0x00
  | .equal => 0x01
  | .greater => 0x02
  | .less => 0x04

end Sys2Proof.Machine
end

