-- ==== Sys2Proof/Machine/Alu.lean ====
section
/-! DEFINITION. The ALU (`42_alu.md`): the result of each operation as exact arithmetic on the unsigned
values narrowed by `trunc8` (R141, R153), the contract `apply(operation, A, B)` (R140), and the meanings of
ADD, MUL, MOD, AND, OR, XOR, SHL, SHR, NOT and CMP. -/

namespace Sys2Proof.Machine

/-- ADD: trunc8(va + vb) (`42_alu.md` R142). -/
def aluAdd (va vb : Byte) : Byte := trunc8 (va.toNat + vb.toNat)

/-- MUL: trunc8(va * vb) (`42_alu.md` R143). -/
def aluMul (va vb : Byte) : Byte := trunc8 (va.toNat * vb.toNat)

/-- MOD: va mod vb, for vb not 0 (`42_alu.md` R144). -/
def aluMod (va vb : Byte) : Byte := trunc8 (va.toNat % vb.toNat)

/-- AND, bit by bit (`42_alu.md` R145). -/
def aluAnd (va vb : Byte) : Byte := va &&& vb

/-- OR, bit by bit (`42_alu.md` R146). -/
def aluOr (va vb : Byte) : Byte := va ||| vb

/-- XOR, bit by bit (`42_alu.md` R147). -/
def aluXor (va vb : Byte) : Byte := va ^^^ vb

/-- NOT: 255 - va (`42_alu.md` R148). -/
def aluNot (va : Byte) : Byte := trunc8 (255 - va.toNat)

/-- SHL: trunc8(va * 2^n), the count used in full; in the form R149 advises, 0 from a count of 8 on. -/
def aluShl (va n : Byte) : Byte := if 8 ≤ n.toNat then 0 else trunc8 (va.toNat * 2 ^ n.toNat)

/-- SHR: floor(va / 2^n), the count used in full, 0 from a count of 8 on (`42_alu.md` R150, R153). -/
def aluShr (va n : Byte) : Byte := if 8 ≤ n.toNat then 0 else trunc8 (va.toNat / 2 ^ n.toNat)

/-- `apply(operation, A, B)` (`42_alu.md` R140): it writes x[A], or FL alone for CMP, and nothing else.
Both values are read before anything is written (R154). The operation is named by the handler's mnemonic;
a name outside the ten fixed ones is the default arm, UnsupportedOperation (R152; log 9), which no handler
supplies. NOT reads x[A] only. -/
def aluApply (operation : Mnemonic) (ra rb : RegIndex) (s : State) : Except Exc State :=
  let va := s.getReg ra
  let vb := s.getReg rb
  match operation with
  | .add => .ok (s.setReg ra (aluAdd va vb))
  | .mul => .ok (s.setReg ra (aluMul va vb))
  | .mod => if vb.toNat = 0 then .error (.divisionByZero rb) else .ok (s.setReg ra (aluMod va vb))
  | .and => .ok (s.setReg ra (aluAnd va vb))
  | .or => .ok (s.setReg ra (aluOr va vb))
  | .xor => .ok (s.setReg ra (aluXor va vb))
  | .shl => .ok (s.setReg ra (aluShl va vb))
  | .shr => .ok (s.setReg ra (aluShr va vb))
  | .not => .ok (s.setReg ra (aluNot va))
  | .cmp => .ok ((s.setFl .none).setFl (compareFlags va vb))
  | .hlt | .ldi | .prn | .push | .pop | .call | .ret | .jmp | .jeq | .jne => .error .unsupportedOperation

/-- The handler of a two-register operation (`42_alu.md` R140): check A, then B, invoke the ALU, advance
`pc` by the length of the instruction. -/
def aluTwo (operation : Mnemonic) (a b : Byte) (s : State) : Result :=
  settle s do
    let d ← reg a
    let r ← reg b
    let t ← aluApply operation d r s
    .ok (t.advance operation.length)

/-- ADD A,B (`42_alu.md` R142). -/
def execAdd (a b : Byte) (s : State) : Result := aluTwo .add a b s

/-- MUL A,B (`42_alu.md` R143). -/
def execMul (a b : Byte) (s : State) : Result := aluTwo .mul a b s

/-- MOD A,B (`42_alu.md` R144). -/
def execMod (a b : Byte) (s : State) : Result := aluTwo .mod a b s

/-- AND A,B (`42_alu.md` R145). -/
def execAnd (a b : Byte) (s : State) : Result := aluTwo .and a b s

/-- OR A,B (`42_alu.md` R146). -/
def execOr (a b : Byte) (s : State) : Result := aluTwo .or a b s

/-- XOR A,B (`42_alu.md` R147). -/
def execXor (a b : Byte) (s : State) : Result := aluTwo .xor a b s

/-- SHL A,B (`42_alu.md` R149). -/
def execShl (a b : Byte) (s : State) : Result := aluTwo .shl a b s

/-- SHR A,B (`42_alu.md` R150). -/
def execShr (a b : Byte) (s : State) : Result := aluTwo .shr a b s

/-- CMP A,B (`42_alu.md` R151). -/
def execCmp (a b : Byte) (s : State) : Result := aluTwo .cmp a b s

/-- NOT A (`42_alu.md` R148): unary; operand B is no part of it. -/
def execNot (a : Byte) (s : State) : Result :=
  settle s do
    let d ← reg a
    let t ← aluApply .not d d s
    .ok (t.advance Mnemonic.not.length)

end Sys2Proof.Machine
end

