-- ==== Sys2Proof/Machine/Control.lean ====
section
/-! DEFINITION. Control transfer (`44_control_transfer.md`): CALL, RET, JMP, JEQ, JNE. Every target is a
byte, taken as it is (R185). -/

namespace Sys2Proof.Machine

/-- CALL A (`44_control_transfer.md` R180): the return address is `pc` + 2, one byte; the target x[A] is
read AFTER the decrement (log 15). -/
def execCall (a : Byte) (s : State) : Result :=
  settle s do
    let t ← reg a
    let s1 ← decrementSp s
    let s2 ← memWrite s1.sp.toNat (trunc8 (s1.pc + 2)) s1
    .ok (s2.setPc (s2.getReg t).toNat)

/-- RET (`44_control_transfer.md` R181). -/
def execRet (s : State) : Result :=
  settle s do
    let v ← memRead s.sp.toNat s
    let s1 ← incrementSp (s.setPc v.toNat)
    .ok s1

/-- JMP A (`44_control_transfer.md` R182). -/
def execJmp (a : Byte) (s : State) : Result :=
  settle s do
    let t ← reg a
    .ok (s.setPc (s.getReg t).toNat)

/-- The conditional jump that JEQ and JNE share: the index is checked taken or not
(`30_encoding.md` R87, `44_control_transfer.md` R183, R184). -/
def jumpIf (taken : Bool) (a : Byte) (s : State) : Result :=
  settle s do
    let t ← reg a
    .ok (if taken then s.setPc (s.getReg t).toNat else s.advance 2)

/-- JEQ A (`44_control_transfer.md` R183): taken if FL is EQUAL. -/
def execJeq (a : Byte) (s : State) : Result := jumpIf s.fl.isEqual a s

/-- JNE A (`44_control_transfer.md` R184): taken if FL is not EQUAL, NONE included. -/
def execJne (a : Byte) (s : State) : Result := jumpIf (!s.fl.isEqual) a s

end Sys2Proof.Machine
end

