-- ==== Sys2Proof/Machine/LoadOutput.lean ====
section
/-! DEFINITION. Load immediate and output (`41_load_immediate_and_output.md`): LDI and PRN. -/

namespace Sys2Proof.Machine

/-- LDI A,imm (`41_load_immediate_and_output.md` R130). -/
def execLdi (a imm : Byte) (s : State) : Result :=
  settle s do
    let d ← reg a
    .ok ((s.setReg d (zext8 imm)).advance 3)

/-- PRN A (`41_load_immediate_and_output.md` R131). -/
def execPrn (a : Byte) (s : State) : Result :=
  settle s do
    let r ← reg a
    .ok ((s.emit (s.getReg r)).advance 2)

end Sys2Proof.Machine
end

