-- ==== Sys2Proof/Machine/Stack.lean ====
section
/-! DEFINITION. The stack instructions (`43_stack.md`): PUSH and POP. The stack is full and descending
(R170); its only checks are those of `decrementSp` and `incrementSp` (R171). -/

namespace Sys2Proof.Machine

/-- PUSH A (`43_stack.md` R172): x[A] is read AFTER the decrement, so PUSH R7 stores the new stack
pointer. -/
def execPush (a : Byte) (s : State) : Result :=
  settle s do
    let r ← reg a
    let s1 ← decrementSp s
    let s2 ← memWrite s1.sp.toNat (s1.getReg r) s1
    .ok (s2.advance 2)

/-- POP A (`43_stack.md` R173): the increment applies to x[7] as it stands after x[A] is written, so POP R7
leaves the popped byte plus 1. -/
def execPop (a : Byte) (s : State) : Result :=
  settle s do
    let d ← reg a
    let v ← memRead s.sp.toNat s
    let s1 ← incrementSp (s.setReg d v)
    .ok (s1.advance 2)

end Sys2Proof.Machine
end

