-- ==== Sys2Proof/Machine/System.lean ====
section
/-! DEFINITION. HLT (`40_execution_cycle.md` R114), the one instruction that addresses the environment
(`60_exceptions.md` R212). -/

namespace Sys2Proof.Machine

/-- HLT (`40_execution_cycle.md` R114): RS <- HALTED_OK, and `pc` advances by 1
(`90_conflicts.md` C1; log 7). -/
def execHlt (s : State) : Result := settle s (.ok ((s.setRs .haltedOk).advance 1))

end Sys2Proof.Machine
end

