-- ==== Sys2Proof/Machine/Fetch.lean ====
section
/-! DEFINITION. Parts 1 to 3 of the step (`40_execution_cycle.md` R111): the opcode fetch, the test of the
Dispatch Table, and the unconditional prefetch of two operand bytes; and the bytes `withFetchWord` places
where the next fetch reads. -/

namespace Sys2Proof.Machine

/-- The fetch (`40_execution_cycle.md` R111): an unregistered opcode raises before any operand is fetched;
a registered one raises when either of the two bytes after it does not exist, however short the instruction
is (D13). -/
def fetch (c : Config) (s : State) : Except Exc Instr := do
  let op ← memRead s.pc s
  match lookup c op with
  | none => .error (.unknownOpcode op)
  | some m =>
    let a ← memRead (s.pc + 1 : Nat) s
    let b ← memRead (s.pc + 2 : Nat) s
    .ok (assemble m a b)

/-- Bytes stored one after another from an address on; a byte beyond the last cell is dropped (log 18). -/
def placeBytes (s : State) (a : Nat) : List Byte → State
  | [] => s
  | v :: rest => placeBytes (if a < Config.memSize then s.poke a v else s) (a + 1) rest

/-- The engine about to fetch: RUNNING, as the host's start leaves it, with these bytes at `pc`
(log 6). -/
def placeFetch (s : State) (bytes : List Byte) : State := (placeBytes s s.pc bytes).setRs .running

end Sys2Proof.Machine
end

