-- ==== Sys2Proof/Machine/Step.lean ====
section
/-! DEFINITION. One step of the engine (`40_execution_cycle.md` R110, R111), for any OPCODE_MAP and at the
default one. -/

namespace Sys2Proof.Machine

/-- One step under the parameters `c`: while RUNNING, fetch and run one instruction; in any other run state
no step is taken and nothing changes (`40_execution_cycle.md` R110; log 5). -/
def stepWith (c : Config) (s : State) : Host.Outcome State Fault Refusal :=
  match s.rs with
  | .running =>
    match fetch c s with
    | .ok i => exec i s
    | .error e => .next (s.takeException e)
  | .idle => .next s
  | .haltedOk => .next s
  | .haltedFault => .next s

/-- One step of the engine with the default parameters. -/
def step (s : State) : Host.Outcome State Fault Refusal := stepWith Config.engine s

/-- `s` with the instruction of a table word stored where `step` fetches its next instruction, and RUNNING
(log 6): the host's load and start in one. -/
def State.withFetchWord (s : State) (nbits w : Nat) : State := placeFetch s (tableBytes nbits w)

end Sys2Proof.Machine
end

