-- ==== Sys2Proof/Machine/HostPort.lean ====
section
/-! DEFINITION. The host's side of the engine (`70_reset_and_hazards.md` R240, R246): reset, load, start, and
what the host reads back. None of these is a step of the engine. -/

namespace Sys2Proof.Machine

/-- The memory after reset under a MEM_INIT (`10_state.md` R36). It is 256 writes, so no proof should
unfold it by computing: `Memory.read_ofInit` (Sys2Proof/Laws/HostPort.lean) says what it holds. -/
@[irreducible] def Memory.ofInit (init : Nat → Byte) : Memory :=
  Memory.writeAll [] 0 ((List.range Config.memSize).map init)

/-- The state after reset under the parameters `c`: `State.reset` with MEM_INIT in its memory
(`10_state.md` R36). -/
def State.resetWith (c : Config) : State := { State.reset with mem := Memory.ofInit c.memInit }

/-- The host's `load` (`20_memory.md` R63): in IDLE only, at most 256 bytes, from address 0 on; it writes
memory and nothing else. -/
def hostLoad (bytes : List Byte) (s : State) : Result :=
  if s.rs ≠ .idle then .refused .loadOutsideIdle
  else if Config.memSize < bytes.length then .refused .imageTooLong
  else .next { s with mem := Memory.writeAll s.mem Config.loadBase bytes }

/-- The host's start (`70_reset_and_hazards.md` R240, R246): in IDLE only, RS <- RUNNING and nothing
else. -/
def hostStart (s : State) : Result :=
  if s.rs ≠ .idle then .refused .startOutsideIdle else .next (s.setRs .running)

/-- What a host action does to the engine (`70_reset_and_hazards.md` R246). -/
def hostStep (c : Config) (action : HostAction) (s : State) : Result :=
  match action with
  | .reset => .next (State.resetWith c)
  | .load bytes => hostLoad bytes s
  | .start => hostStart s

/-- Reset, one load and the start, from any state: the way a program comes to run
(`70_reset_and_hazards.md` R240, R250). -/
def launch (c : Config) (image : List Byte) (s : State) : Result :=
  match hostStep c .reset s with
  | .next s0 =>
    match hostStep c (.load image) s0 with
    | .next s1 => hostStep c .start s1
    | other => other
  | other => other

/-- The exit status (`70_reset_and_hazards.md` R248): 0 after HLT, 1 after any fault, none before the end. -/
def State.exitStatus (s : State) : Option Nat :=
  match s.rs with
  | .haltedOk => some 0
  | .haltedFault => some 1
  | .idle => none
  | .running => none

/-- The observable result, once the run has ended (`70_reset_and_hazards.md` R247). -/
def State.observe (s : State) : Option Observation :=
  match s.exitStatus with
  | some n => some { out := s.out, exitStatus := n, fault := if n = 1 then s.fr else none }
  | none => none

/-- The lines the host prints for OUT: one unsigned decimal numeral each
(`10_state.md` R34, `41_load_immediate_and_output.md` R131). -/
def State.outputLines (s : State) : List String := s.out.map fun v => toString v.toNat

end Sys2Proof.Machine
end

