-- ==== Sys2Proof/Safety.lean ====
section
/-! DEFINITION. The terms in which claims about the engine are stated: what an answer is, what an
instruction leaves unchanged, what an abort leaves, which registers an instruction names, and the invariant
of the machine. -/

namespace Sys2Proof.Machine

/-- The operand byte `k` is the index of register `r` (`30_encoding.md` R82). -/
def Names (k : Byte) (r : RegIndex) : Prop := k.toNat = r.val

/-- The step or meaning answers a next state, of which `P` holds. -/
def Answers (answer : Result) (P : State → Prop) : Prop := ∃ t, answer = .next t ∧ P t

/-- Every register reads as before. -/
def KeepsRegs (s t : State) : Prop := ∀ q : RegIndex, t.getReg q = s.getReg q

/-- Every register but `d` reads as before. -/
def KeepsRegsBut (s t : State) (d : RegIndex) : Prop := ∀ q : RegIndex, q ≠ d → t.getReg q = s.getReg q

/-- Every byte of memory reads as before. -/
def KeepsMemory (s t : State) : Prop := ∀ a : Nat, t.peek a = s.peek a

/-- Every byte of memory but the one at `slot` reads as before. -/
def KeepsMemoryBut (s t : State) (slot : Nat) : Prop := ∀ a : Nat, a ≠ slot → t.peek a = s.peek a

/-- Neither the run state nor the fault record changed: the run goes on. -/
def KeepsRun (s t : State) : Prop := t.rs = s.rs ∧ t.fr = s.fr

/-- `t` is `s` but for register `d` and for `pc`, which stands `len` bytes further: the frame of an
instruction that writes one register. -/
structure OnlyReg (s t : State) (d : RegIndex) (len : Nat) : Prop where
  regs : KeepsRegsBut s t d
  pc : t.pc = s.pc + len
  fl : t.fl = s.fl
  memory : KeepsMemory s t
  out : t.out = s.out
  run : KeepsRun s t

/-- `t` is `s` but for `pc`, which is `target`: the frame of a jump. -/
structure OnlyPc (s t : State) (target : Nat) : Prop where
  regs : KeepsRegs s t
  pc : t.pc = target
  fl : t.fl = s.fl
  memory : KeepsMemory s t
  out : t.out = s.out
  run : KeepsRun s t

/-- `t` is what the fatal abort leaves of `s` (`60_exceptions.md` R206): the record is written, RS is
HALTED_FAULT, and x, M, FL, `pc` and OUT are as they were. -/
structure Aborted (s t : State) (cause : Cause) (info : FaultInfo) (trace : Option Trace) : Prop where
  rs : t.rs = .haltedFault
  record : t.fr = some { cause := cause, addr := s.pc, info := info, trace := trace }
  regs : KeepsRegs s t
  pc : t.pc = s.pc
  fl : t.fl = s.fl
  memory : KeepsMemory s t
  out : t.out = s.out

/-- The registers an instruction writes when it completes (`10_state.md` R23). -/
def WritesReg (i : Instr) (q : RegIndex) : Prop :=
  match i with
  | .hlt => False
  | .ldi a _ => Names a q
  | .prn _ => False
  | .add a _ => Names a q
  | .mul a _ => Names a q
  | .mod a _ => Names a q
  | .and a _ => Names a q
  | .or a _ => Names a q
  | .xor a _ => Names a q
  | .shl a _ => Names a q
  | .shr a _ => Names a q
  | .not a => Names a q
  | .push _ => q = Config.spIndex
  | .pop a => Names a q ∨ q = Config.spIndex
  | .call _ => q = Config.spIndex
  | .ret => q = Config.spIndex
  | .cmp _ _ => False
  | .jmp _ => False
  | .jeq _ => False
  | .jne _ => False

/-- The registers an instruction reads in a state: JEQ and JNE read x[A] when they are taken
(`10_state.md` R23). -/
def ReadsReg (i : Instr) (s : State) (q : RegIndex) : Prop :=
  match i with
  | .hlt => False
  | .ldi _ _ => False
  | .prn a => Names a q
  | .add a b => Names a q ∨ Names b q
  | .mul a b => Names a q ∨ Names b q
  | .mod a b => Names a q ∨ Names b q
  | .and a b => Names a q ∨ Names b q
  | .or a b => Names a q ∨ Names b q
  | .xor a b => Names a q ∨ Names b q
  | .shl a b => Names a q ∨ Names b q
  | .shr a b => Names a q ∨ Names b q
  | .not a => Names a q
  | .push a => q = Config.spIndex ∨ Names a q
  | .pop _ => q = Config.spIndex
  | .call a => q = Config.spIndex ∨ Names a q
  | .ret => q = Config.spIndex
  | .cmp a b => Names a q ∨ Names b q
  | .jmp a => Names a q
  | .jeq a => Names a q ∧ s.fl = .equal
  | .jne a => Names a q ∧ s.fl ≠ .equal

/-- The address an instruction stores its one byte to, if it stores at all: PUSH and CALL at the
decremented stack pointer (`20_memory.md` R52, `43_stack.md` R170). -/
def storeAddress (i : Instr) (s : State) : Option Nat :=
  match i with
  | .push _ => some (s.sp.toNat - 1)
  | .call _ => some (s.sp.toNat - 1)
  | .hlt | .ldi _ _ | .prn _ | .add _ _ | .mul _ _ | .mod _ _ | .and _ _ | .or _ _ | .xor _ _ => none
  | .shl _ _ | .shr _ _ | .not _ | .pop _ | .ret | .cmp _ _ | .jmp _ | .jeq _ | .jne _ => none

/-- The instruction's own condition does not fail: a divisor that is not 0, and a stack pointer that can
move (`60_exceptions.md` R204, R209 part 5). -/
def OwnConditionHolds (i : Instr) (s : State) : Prop :=
  match i with
  | .mod _ b => ∀ r, Names b r → (s.getReg r).toNat ≠ 0
  | .push _ => s.sp.toNat ≠ 0
  | .call _ => s.sp.toNat ≠ 0
  | .pop a => if a.toNat = Config.spIndex.val then (s.peek s.sp.toNat).toNat ≠ 255 else s.sp.toNat ≠ 255
  | .ret => s.sp.toNat ≠ 255
  | .hlt | .ldi _ _ | .prn _ | .add _ _ | .mul _ _ | .and _ _ | .or _ _ | .xor _ _ | .shl _ _ => True
  | .shr _ _ | .not _ | .cmp _ _ | .jmp _ | .jeq _ | .jne _ => True

/-- `pc` after an instruction that completed (`40_execution_cycle.md` R116); `t` is the state after it,
which CALL's target is read from, its stack pointer being decremented already. -/
def PcAfter (i : Instr) (s t : State) : Prop :=
  match i with
  | .hlt => t.pc = s.pc + 1
  | .ldi _ _ | .add _ _ | .mul _ _ | .mod _ _ | .and _ _ | .or _ _ | .xor _ _ => t.pc = s.pc + 3
  | .shl _ _ | .shr _ _ | .cmp _ _ => t.pc = s.pc + 3
  | .prn _ | .not _ | .push _ | .pop _ => t.pc = s.pc + 2
  | .call a => ∀ r, Names a r → t.pc = (t.getReg r).toNat
  | .ret => t.pc = (s.peek s.sp.toNat).toNat
  | .jmp a => ∀ r, Names a r → t.pc = (s.getReg r).toNat
  | .jeq a => ∀ r, Names a r → t.pc = if s.fl = .equal then (s.getReg r).toNat else s.pc + 2
  | .jne a => ∀ r, Names a r → t.pc = if s.fl ≠ .equal then (s.getReg r).toNat else s.pc + 2

/-- Operand A of a one-register instruction is checked: above 7 it raises AddressError(reg, A) and nothing
else happens (`30_encoding.md` R87). -/
def ChecksOperandA (f : Byte → Instr) (s : State) : Prop :=
  ∀ a : Byte, 7 < a.toNat → Answers (exec (f a) s) fun t => Aborted s t .addressError (.reg a) none

/-- Both operands of a two-register instruction are checked, A first: the first one above 7 raises
AddressError(reg, that operand) and nothing else happens (`30_encoding.md` R87). -/
def ChecksBothOperands (f : Byte → Byte → Instr) (s : State) : Prop :=
  ∀ a b : Byte,
    (7 < a.toNat → Answers (exec (f a b) s) fun t => Aborted s t .addressError (.reg a) none) ∧
    (a.toNat ≤ 7 → 7 < b.toNat →
      Answers (exec (f a b) s) fun t => Aborted s t .addressError (.reg b) none)

/-- A two-register instruction writes to register A the value that `result` gives of the two values read
before the write, and nothing else but `pc` (`42_alu.md` R140, R154). -/
def WritesResult (f : Byte → Byte → Instr) (s : State) (result : Byte → Byte → Byte → Prop) : Prop :=
  ∀ (a b : Byte) (d r : RegIndex), Names a d → Names b r →
    Answers (exec (f a b) s) fun t => result (s.getReg d) (s.getReg r) (t.getReg d) ∧ OnlyReg s t d 3

/-- The three bytes a step fetches from `pc` on (`40_execution_cycle.md` R111). -/
def fetchedBytes (s : State) : List Byte := [s.peek s.pc, s.peek (s.pc + 1), s.peek (s.pc + 2)]

/-- The invariant of the machine, which reset meets and every step keeps. -/
structure Inv (s : State) : Prop where
  /-- The memory is in its canonical form, within its 256 cells (`20_memory.md` R50). -/
  memory : Memory.wf s.mem = true
  /-- `pc` is 0..256 (`10_state.md` R26). -/
  pc_range : s.pc ≤ 256
  /-- A fault is recorded exactly in HALTED_FAULT (`10_state.md` R29, R30). -/
  fault_iff : s.rs = .haltedFault ↔ s.fr.isSome = true
  /-- The record names the address at which `pc` still stands (`60_exceptions.md` R206). -/
  fault_addr : ∀ f, s.fr = some f → f.addr = s.pc
  /-- UnsupportedOperation is never raised (`42_alu.md` R152, `60_exceptions.md` R203). -/
  fault_cause : ∀ f, s.fr = some f → f.cause ≠ .unsupportedOperation
  /-- UnknownOpcode, and it alone, has a trace, and the trace shows the state as it stands
  (`60_exceptions.md` R207). -/
  fault_trace : ∀ f, s.fr = some f → f.trace = if f.cause = .unknownOpcode then some s.trace else none

end Sys2Proof.Machine
end

