-- ==== Sys2Proof/Certificates/Slice0/Obligations.lean ====
section
/-! DEFINITION. What is claimed of the engine, for the provers: each obligation is a `Prop`, stated in the
terms of Sys2Proof/Safety.lean. -/

open Sys2Proof Sys2Proof.Machine

/-! ## The instructions, one by one: result, frame, faults -/

/-- `40_execution_cycle.md` R114: HLT ends the run with status 0, advances `pc` by 1 and changes nothing
else. -/
def Obligations.HltHaltsWithStatusZero : Prop :=
  ∀ (c : Config) (s : State),
    encode c .hlt = [c.opcodeMap .hlt] ∧
    Answers (exec .hlt s) fun t =>
      t.rs = .haltedOk ∧ t.exitStatus = some 0 ∧ t.pc = s.pc + 1 ∧
      KeepsRegs s t ∧ t.fl = s.fl ∧ KeepsMemory s t ∧ t.out = s.out ∧ t.fr = s.fr

/-- `41_load_immediate_and_output.md` R130: LDI puts its immediate byte in register A and advances `pc` by
3; every immediate is legal, and only operand A can fault. -/
def Obligations.LdiLoadsItsImmediate : Prop :=
  ∀ (c : Config) (s : State) (imm : Byte),
    ChecksOperandA (fun a => .ldi a imm) s ∧
    ∀ a : Byte,
      encode c (.ldi a imm) = [c.opcodeMap .ldi, a, imm] ∧
      ∀ d, Names a d → Answers (exec (.ldi a imm) s) fun t => t.getReg d = imm ∧ OnlyReg s t d 3

/-- `41_load_immediate_and_output.md` R131: PRN appends the value of register A to OUT, which the host
prints as one more decimal line, and advances `pc` by 2. -/
def Obligations.PrnAppendsOneValueToOut : Prop :=
  ∀ (c : Config) (s : State),
    ChecksOperandA .prn s ∧
    ∀ a : Byte,
      encode c (.prn a) = [c.opcodeMap .prn, a] ∧
      ∀ d, Names a d → Answers (exec (.prn a) s) fun t =>
        t.out = s.out ++ [s.getReg d] ∧
        t.outputLines = s.outputLines ++ [toString (s.getReg d).toNat] ∧
        KeepsRegs s t ∧ t.pc = s.pc + 2 ∧ t.fl = s.fl ∧ KeepsMemory s t ∧ KeepsRun s t

/-- `42_alu.md` R142, R143: ADD and MUL write the sum and the product of the unsigned values, modulo 256,
to register A. -/
def Obligations.AddAndMulWrapModulo256 : Prop :=
  ∀ (c : Config) (s : State),
    (ChecksBothOperands .add s ∧ WritesResult .add s fun va vb v => v.toNat = (va.toNat + vb.toNat) % 256) ∧
    (ChecksBothOperands .mul s ∧ WritesResult .mul s fun va vb v => v.toNat = (va.toNat * vb.toNat) % 256) ∧
    ∀ a b : Byte,
      encode c (.add a b) = [c.opcodeMap .add, a, b] ∧ encode c (.mul a b) = [c.opcodeMap .mul, a, b]

/-- `42_alu.md` R144: MOD writes the remainder r with 0 <= r < vb and va = q * vb + r; a divisor of 0
raises DivisionByZero with the divisor's register, after both operands were checked. -/
def Obligations.ModWritesRemainderOrFaults : Prop :=
  ∀ (c : Config) (s : State),
    ChecksBothOperands .mod s ∧
    ∀ a b : Byte,
      encode c (.mod a b) = [c.opcodeMap .mod, a, b] ∧
      ∀ d r, Names a d → Names b r →
        ((s.getReg r).toNat ≠ 0 → Answers (exec (.mod a b) s) fun t =>
          (t.getReg d).toNat < (s.getReg r).toNat ∧
          (∃ q : Nat, (s.getReg d).toNat = q * (s.getReg r).toNat + (t.getReg d).toNat) ∧
          OnlyReg s t d 3) ∧
        ((s.getReg r).toNat = 0 → Answers (exec (.mod a b) s) fun t =>
          Aborted s t .divisionByZero (.divisor r) none)

/-- `42_alu.md` R145, R146, R147: AND, OR and XOR combine the two values bit by bit. -/
def Obligations.AndOrXorCombineBitByBit : Prop :=
  ∀ (c : Config) (s : State),
    (ChecksBothOperands .and s ∧ WritesResult .and s fun va vb v =>
      ∀ i : Nat, i < 8 → v.getLsbD i = (va.getLsbD i && vb.getLsbD i)) ∧
    (ChecksBothOperands .or s ∧ WritesResult .or s fun va vb v =>
      ∀ i : Nat, i < 8 → v.getLsbD i = (va.getLsbD i || vb.getLsbD i)) ∧
    (ChecksBothOperands .xor s ∧ WritesResult .xor s fun va vb v =>
      ∀ i : Nat, i < 8 → v.getLsbD i = (va.getLsbD i ^^ vb.getLsbD i)) ∧
    ∀ a b : Byte,
      encode c (.and a b) = [c.opcodeMap .and, a, b] ∧
      encode c (.or a b) = [c.opcodeMap .or, a, b] ∧
      encode c (.xor a b) = [c.opcodeMap .xor, a, b]

/-- `42_alu.md` R148: NOT inverts the 8 bits of register A, which leaves 255 minus its value, and advances
`pc` by 2. -/
def Obligations.NotInvertsEveryBit : Prop :=
  ∀ (c : Config) (s : State),
    ChecksOperandA .not s ∧
    ∀ a : Byte,
      encode c (.not a) = [c.opcodeMap .not, a] ∧
      ∀ d, Names a d → Answers (exec (.not a) s) fun t =>
        (t.getReg d).toNat = 255 - (s.getReg d).toNat ∧
        (∀ i : Nat, i < 8 → (t.getReg d).getLsbD i = !(s.getReg d).getLsbD i) ∧
        OnlyReg s t d 2

/-- `42_alu.md` R149, R150: SHL and SHR shift by the whole value of register B: va * 2^n modulo 256 and
floor(va / 2^n), for every count n, so 0 from a count of 8 on. -/
def Obligations.ShiftsUseTheWholeCount : Prop :=
  ∀ (c : Config) (s : State),
    (ChecksBothOperands .shl s ∧ WritesResult .shl s fun va n v =>
      v.toNat = va.toNat * 2 ^ n.toNat % 256 ∧ (8 ≤ n.toNat → v.toNat = 0)) ∧
    (ChecksBothOperands .shr s ∧ WritesResult .shr s fun va n v =>
      v.toNat = va.toNat / 2 ^ n.toNat ∧ (8 ≤ n.toNat → v.toNat = 0)) ∧
    ∀ a b : Byte,
      encode c (.shl a b) = [c.opcodeMap .shl, a, b] ∧ encode c (.shr a b) = [c.opcodeMap .shr, a, b]

/-- `42_alu.md` R151: CMP leaves EQUAL, GREATER or LESS in FL by the unsigned order of the two registers,
whatever FL was, and writes no register. -/
def Obligations.CmpSetsFlagsByUnsignedOrder : Prop :=
  ∀ (c : Config) (s : State),
    ChecksBothOperands .cmp s ∧
    ∀ a b : Byte,
      encode c (.cmp a b) = [c.opcodeMap .cmp, a, b] ∧
      ∀ d r, Names a d → Names b r → Answers (exec (.cmp a b) s) fun t =>
        (t.fl = .equal ↔ (s.getReg d).toNat = (s.getReg r).toNat) ∧
        (t.fl = .greater ↔ (s.getReg d).toNat > (s.getReg r).toNat) ∧
        (t.fl = .less ↔ (s.getReg d).toNat < (s.getReg r).toNat) ∧
        t.fl ≠ .none ∧
        KeepsRegs s t ∧ t.pc = s.pc + 3 ∧ KeepsMemory s t ∧ t.out = s.out ∧ KeepsRun s t

/-- `43_stack.md` R172: PUSH decrements x[7] and stores register A, read after the decrement, at the new
x[7]; from x[7] = 0 it raises AddressError(mem, -1). -/
def Obligations.PushStoresBelowTheStackPointer : Prop :=
  ∀ (c : Config) (s : State),
    ChecksOperandA .push s ∧
    ∀ a : Byte,
      encode c (.push a) = [c.opcodeMap .push, a] ∧
      ∀ d, Names a d →
        ((s.getReg 7).toNat ≠ 0 → Answers (exec (.push a) s) fun t =>
          (t.getReg 7).toNat = (s.getReg 7).toNat - 1 ∧
          t.peek ((s.getReg 7).toNat - 1) = t.getReg d ∧
          KeepsRegsBut s t 7 ∧ KeepsMemoryBut s t ((s.getReg 7).toNat - 1) ∧
          t.pc = s.pc + 2 ∧ t.fl = s.fl ∧ t.out = s.out ∧ KeepsRun s t) ∧
        ((s.getReg 7).toNat = 0 → Answers (exec (.push a) s) fun t =>
          Aborted s t .addressError (.mem (-1)) none)

/-- `43_stack.md` R173: POP loads register A from M[x[7]] and then increments x[7]; POP R7 leaves the
popped byte plus 1 in x[7]. Where the increment would give 256 it raises AddressError(mem, 256). -/
def Obligations.PopLoadsThenIncrements : Prop :=
  ∀ (c : Config) (s : State),
    ChecksOperandA .pop s ∧
    ∀ a : Byte,
      encode c (.pop a) = [c.opcodeMap .pop, a] ∧
      (∀ d, Names a d → d ≠ 7 →
        ((s.getReg 7).toNat ≠ 255 → Answers (exec (.pop a) s) fun t =>
          t.getReg d = s.peek (s.getReg 7).toNat ∧ (t.getReg 7).toNat = (s.getReg 7).toNat + 1 ∧
          (∀ q, q ≠ d → q ≠ 7 → t.getReg q = s.getReg q) ∧
          t.pc = s.pc + 2 ∧ t.fl = s.fl ∧ KeepsMemory s t ∧ t.out = s.out ∧ KeepsRun s t) ∧
        ((s.getReg 7).toNat = 255 → Answers (exec (.pop a) s) fun t =>
          Aborted s t .addressError (.mem 256) none)) ∧
      (Names a 7 →
        ((s.peek (s.getReg 7).toNat).toNat ≠ 255 → Answers (exec (.pop a) s) fun t =>
          (t.getReg 7).toNat = (s.peek (s.getReg 7).toNat).toNat + 1 ∧ OnlyReg s t 7 2) ∧
        ((s.peek (s.getReg 7).toNat).toNat = 255 → Answers (exec (.pop a) s) fun t =>
          Aborted s t .addressError (.mem 256) none))

/-- `44_control_transfer.md` R180: CALL decrements x[7], stores the return address `pc` + 2 at the new x[7]
and jumps to register A, read after the decrement; from x[7] = 0 it raises AddressError(mem, -1). An
instruction runs only with `pc` + 2 <= 255 (R111), where the return address fits its cell. -/
def Obligations.CallStoresTheReturnAddress : Prop :=
  ∀ (c : Config) (s : State), s.pc + 2 ≤ 255 →
    ChecksOperandA .call s ∧
    ∀ a : Byte,
      encode c (.call a) = [c.opcodeMap .call, a] ∧
      ∀ d, Names a d →
        ((s.getReg 7).toNat ≠ 0 → Answers (exec (.call a) s) fun t =>
          (t.getReg 7).toNat = (s.getReg 7).toNat - 1 ∧
          (t.peek ((s.getReg 7).toNat - 1)).toNat = s.pc + 2 ∧
          t.pc = (t.getReg d).toNat ∧
          KeepsRegsBut s t 7 ∧ KeepsMemoryBut s t ((s.getReg 7).toNat - 1) ∧
          t.fl = s.fl ∧ t.out = s.out ∧ KeepsRun s t) ∧
        ((s.getReg 7).toNat = 0 → Answers (exec (.call a) s) fun t =>
          Aborted s t .addressError (.mem (-1)) none)

/-- `44_control_transfer.md` R181: RET jumps to the byte at M[x[7]] and increments x[7]; at x[7] = 255 it
raises AddressError(mem, 256). -/
def Obligations.RetJumpsToTheStackTop : Prop :=
  ∀ (c : Config) (s : State),
    encode c .ret = [c.opcodeMap .ret] ∧
    ((s.getReg 7).toNat ≠ 255 → Answers (exec .ret s) fun t =>
      t.pc = (s.peek (s.getReg 7).toNat).toNat ∧ (t.getReg 7).toNat = (s.getReg 7).toNat + 1 ∧
      KeepsRegsBut s t 7 ∧ t.fl = s.fl ∧ KeepsMemory s t ∧ t.out = s.out ∧ KeepsRun s t) ∧
    ((s.getReg 7).toNat = 255 → Answers (exec .ret s) fun t =>
      Aborted s t .addressError (.mem 256) none)

/-- `44_control_transfer.md` R182: JMP sets `pc` to the value of register A and changes nothing else. -/
def Obligations.JmpGoesToTheRegister : Prop :=
  ∀ (c : Config) (s : State),
    ChecksOperandA .jmp s ∧
    ∀ a : Byte,
      encode c (.jmp a) = [c.opcodeMap .jmp, a] ∧
      ∀ d, Names a d → Answers (exec (.jmp a) s) fun t => OnlyPc s t (s.getReg d).toNat

/-- `44_control_transfer.md` R183, R184: JEQ jumps to register A if FL is EQUAL, JNE if it is anything
else, NONE included; the one that does not jump moves `pc` by 2. Operand A is checked taken or not, and FL
keeps its value. -/
def Obligations.JeqAndJneTestEqualOnly : Prop :=
  ∀ (c : Config) (s : State),
    ChecksOperandA .jeq s ∧ ChecksOperandA .jne s ∧
    ∀ a : Byte,
      encode c (.jeq a) = [c.opcodeMap .jeq, a] ∧ encode c (.jne a) = [c.opcodeMap .jne, a] ∧
      ∀ d, Names a d →
        (s.fl = .equal →
          (Answers (exec (.jeq a) s) fun t => OnlyPc s t (s.getReg d).toNat) ∧
          (Answers (exec (.jne a) s) fun t => OnlyPc s t (s.pc + 2))) ∧
        (s.fl ≠ .equal →
          (Answers (exec (.jeq a) s) fun t => OnlyPc s t (s.pc + 2)) ∧
          (Answers (exec (.jne a) s) fun t => OnlyPc s t (s.getReg d).toNat))

/-! ## Laws over all instructions -/

/-- `42_alu.md` R153: the arithmetic of the ALU's operations, collected, on the unsigned values. -/
def Obligations.AluResultsAreUnsignedModulo256 : Prop :=
  ∀ va vb : Byte,
    (aluAdd va vb).toNat = (va.toNat + vb.toNat) % 256 ∧
    (aluMul va vb).toNat = (va.toNat * vb.toNat) % 256 ∧
    (1 ≤ vb.toNat → (aluMod va vb).toNat = va.toNat % vb.toNat) ∧
    (∀ i : Nat, i < 8 → (aluAnd va vb).getLsbD i = (va.getLsbD i && vb.getLsbD i) ∧
      (aluOr va vb).getLsbD i = (va.getLsbD i || vb.getLsbD i) ∧
      (aluXor va vb).getLsbD i = (va.getLsbD i ^^ vb.getLsbD i)) ∧
    (aluNot va).toNat = 255 - va.toNat ∧
    (aluShl va vb).toNat = (va.toNat * 2 ^ vb.toNat) % 256 ∧
    (8 ≤ vb.toNat → (aluShl va vb).toNat = 0 ∧ (aluShr va vb).toNat = 0) ∧
    (aluShr va vb).toNat = va.toNat / 2 ^ vb.toNat ∧
    (∀ (s : State) (d r : RegIndex), (s.getReg r).toNat = 0 →
      aluApply .mod d r s = .error (.divisionByZero r)) ∧
    (compareFlags va vb = .equal ↔ va.toNat = vb.toNat) ∧
    (compareFlags va vb = .greater ↔ va.toNat > vb.toNat) ∧
    (compareFlags va vb = .less ↔ va.toNat < vb.toNat)

/-- `42_alu.md` R154: with the same register as source and destination, both values are read before the
write: ADD doubles, MUL squares, MOD gives 0 or DivisionByZero, AND and OR leave the value, XOR clears,
SHL shifts by the register's own value, SHR gives 0, CMP gives EQUAL. -/
def Obligations.SameRegisterTwiceIsReadBeforeWritten : Prop :=
  ∀ (s : State) (k : Byte) (d : RegIndex), Names k d →
    (Answers (exec (.add k k) s) fun t => (t.getReg d).toNat = 2 * (s.getReg d).toNat % 256) ∧
    (Answers (exec (.mul k k) s) fun t => (t.getReg d).toNat = (s.getReg d).toNat ^ 2 % 256) ∧
    ((s.getReg d).toNat ≠ 0 → Answers (exec (.mod k k) s) fun t => (t.getReg d).toNat = 0) ∧
    ((s.getReg d).toNat = 0 → Answers (exec (.mod k k) s) fun t =>
      Aborted s t .divisionByZero (.divisor d) none) ∧
    (Answers (exec (.and k k) s) fun t => t.getReg d = s.getReg d) ∧
    (Answers (exec (.or k k) s) fun t => t.getReg d = s.getReg d) ∧
    (Answers (exec (.xor k k) s) fun t => (t.getReg d).toNat = 0) ∧
    (Answers (exec (.shl k k) s) fun t =>
      (t.getReg d).toNat = (s.getReg d).toNat * 2 ^ (s.getReg d).toNat % 256) ∧
    (Answers (exec (.shr k k) s) fun t => (t.getReg d).toNat = 0) ∧
    (Answers (exec (.cmp k k) s) fun t => t.fl = .equal)

/-- `30_encoding.md` R87: for every instruction, the first register operand above 7 raises
AddressError(reg, that operand), whatever the instruction would go on to do, and nothing else happens. -/
def Obligations.FirstBadRegisterOperandFaults : Prop :=
  ∀ (i : Instr) (s : State) (before after : List Byte) (k : Byte),
    i.regOperands = before ++ k :: after → (∀ j ∈ before, j.toNat ≤ 7) → 7 < k.toNat →
    Answers (exec i s) fun t => Aborted s t .addressError (.reg k) none

/-- `60_exceptions.md` R204 (3) to (5), R209 (4) and (5): a well-formed instruction whose own condition
holds completes, with no fault, and one whose own condition fails takes a fault; no other condition makes
an instruction fault. The run state of a completed instruction is as before, HALTED_OK after HLT. -/
def Obligations.InstructionFaultsExactlyWhenTheSpecSays : Prop :=
  ∀ (i : Instr) (s : State), s.rs = .running →
    ((i.wellFormed = true ∧ OwnConditionHolds i s) →
      Answers (exec i s) fun t => t.fr = s.fr ∧ t.rs = if i = .hlt then .haltedOk else .running) ∧
    (¬ (i.wellFormed = true ∧ OwnConditionHolds i s) →
      Answers (exec i s) fun t => t.rs = .haltedFault)

/-- `10_state.md` R23: an instruction changes no register but those the table gives it, and a register that
the table does not give it to read plays no part in anything else it does. -/
def Obligations.RegistersReadAndWrittenAsTabled : Prop :=
  ∀ (i : Instr) (s t : State), exec i s = .next t →
    (∀ q, ¬ WritesReg i q → t.getReg q = s.getReg q) ∧
    ∀ (q : RegIndex) (v : Byte) (u : State), ¬ ReadsReg i s q → exec i (s.setReg q v) = .next u →
      KeepsRegsBut t u q ∧ u.pc = t.pc ∧ u.fl = t.fl ∧ u.mem = t.mem ∧ u.out = t.out ∧ KeepsRun t u

/-- `20_memory.md` R52, the data side: PUSH and CALL are the only instructions that write memory, one byte
at the decremented stack pointer, and POP and RET the only ones that read it, one byte at the stack
pointer. -/
def Obligations.MemoryReachedByStackInstructionsOnly : Prop :=
  ∀ (i : Instr) (s t : State), exec i s = .next t →
    (∀ a : Nat, storeAddress i s ≠ some a → t.peek a = s.peek a) ∧
    ∀ (a : Nat) (v : Byte) (u : State),
      (i = .ret ∨ (∃ k, i = .pop k) → a ≠ s.sp.toNat) → exec i (s.poke a v) = .next u →
      KeepsRegs t u ∧ u.pc = t.pc ∧ u.fl = t.fl ∧ KeepsMemoryBut t u a ∧ u.out = t.out ∧ KeepsRun t u

/-- `10_state.md` R27: CMP alone writes FL, and never leaves NONE; JEQ and JNE alone read it, and tell
EQUAL from the rest only; after reset it is NONE. -/
def Obligations.FlagsWrittenByCmpReadByJumpsOnly : Prop :=
  State.reset.fl = .none ∧
  ∀ (i : Instr) (s t : State), exec i s = .next t →
    ((∀ a b, i ≠ .cmp a b) → t.fl = s.fl) ∧
    (∀ a b, i = .cmp a b → t.rs ≠ .haltedFault → t.fl ≠ .none) ∧
    (s.fl ≠ .none → t.fl ≠ .none) ∧
    ∀ (f : Flags) (u : State),
      ((∃ a, i = .jeq a ∨ i = .jne a) → (f = .equal ↔ s.fl = .equal)) → exec i (s.setFl f) = .next u →
      u.setFl .none = t.setFl .none

/-- `10_state.md` R34: OUT is empty at reset and append-only: PRN that completes adds the value of its
register at the end, no other instruction changes OUT, none reads it, and the host prints each value as its
unsigned decimal numeral. -/
def Obligations.OutGrowsByPrnOnly : Prop :=
  State.reset.out = [] ∧
  (∀ s : State, s.outputLines = s.out.map fun v => toString v.toNat) ∧
  ∀ (i : Instr) (s t : State), exec i s = .next t →
    (t.out = s.out ∨ ∃ a d, i = .prn a ∧ Names a d ∧ t.out = s.out ++ [s.getReg d]) ∧
    ((∀ a, i ≠ .prn a) → t.out = s.out) ∧
    ∀ (o : List Byte) (u : State), exec i { s with out := o } = .next u → { u with out := t.out } = t

/-- `40_execution_cycle.md` R116: `pc` after each instruction that completed. -/
def Obligations.PcAfterEachInstruction : Prop :=
  ∀ (i : Instr) (s t : State), s.rs = .running → exec i s = .next t → t.rs ≠ .haltedFault → PcAfter i s t

/-- The stack round trip of `43_stack.md` R172 (`95_test_vectors.md` S5): after PUSH of a register other
than R7, whatever is then written to that register, POP of it gives the value back and x[7] its old
value. -/
def Obligations.PushThenPopRestores : Prop :=
  ∀ (s : State) (a : Byte) (d : RegIndex), Names a d → d ≠ 7 → (s.getReg 7).toNat ≠ 0 →
    Answers (exec (.push a) s) fun s1 => ∀ v : Byte,
      Answers (exec (.pop a) (s1.setReg d v)) fun s2 =>
        s2.getReg d = s.getReg d ∧ s2.getReg 7 = s.getReg 7 ∧ s2.rs = s.rs ∧ s2.fr = s.fr

/-- `43_stack.md` R172, last corner case: PUSH R7 then POP R7 gives x[7] its old value. -/
def Obligations.PushThenPopOfTheStackPointerRestores : Prop :=
  ∀ s : State, (s.getReg 7).toNat ≠ 0 →
    Answers (exec (.push 7) s) fun s1 => Answers (exec (.pop 7) s1) fun s2 =>
      s2.getReg 7 = s.getReg 7 ∧ s2.rs = s.rs ∧ s2.fr = s.fr

/-- The call and return property of `44_control_transfer.md` R180 (`95_test_vectors.md` S6): a RET that
finds the stack pointer and the return-address cell as CALL left them resumes at the call site + 2 with the
stack pointer of before the call. -/
def Obligations.CallThenRetResumesAfterTheCall : Prop :=
  ∀ (s : State) (a : Byte) (d : RegIndex), Names a d → s.pc + 2 ≤ 255 → (s.getReg 7).toNat ≠ 0 →
    Answers (exec (.call a) s) fun s1 => ∀ s2 : State,
      s2.getReg 7 = s1.getReg 7 → s2.peek (s1.getReg 7).toNat = s1.peek (s1.getReg 7).toNat →
      Answers (exec .ret s2) fun s3 => s3.pc = s.pc + 2 ∧ s3.getReg 7 = s.getReg 7

/-- The comparison property of `42_alu.md` R151 (`95_test_vectors.md` S7): after CMP, JEQ jumps iff the two
registers are equal, and JNE iff they are not. -/
def Obligations.CmpThenJumpTestsEquality : Prop :=
  ∀ (s : State) (a b k : Byte) (d r target : RegIndex), Names a d → Names b r → Names k target →
    Answers (exec (.cmp a b) s) fun s1 =>
      (Answers (exec (.jeq k) s1) fun s2 =>
        s2.pc = if s.getReg d = s.getReg r then (s.getReg target).toNat else s1.pc + 2) ∧
      (Answers (exec (.jne k) s1) fun s2 =>
        s2.pc = if s.getReg d = s.getReg r then s1.pc + 2 else (s.getReg target).toNat)

/-! ## Exceptions -/

/-- `60_exceptions.md` R200: the numeric code and the FR.info of each cause. -/
def Obligations.CausesHaveTheirCodesAndInfo : Prop :=
  Cause.unknownOpcode.code = 1 ∧ Cause.divisionByZero.code = 2 ∧ Cause.unsupportedOperation.code = 3 ∧
  Cause.addressError.code = 4 ∧
  (∀ op, (Exc.unknownOpcode op).cause = .unknownOpcode ∧ (Exc.unknownOpcode op).info = .opcode op) ∧
  (∀ r, (Exc.divisionByZero r).cause = .divisionByZero ∧ (Exc.divisionByZero r).info = .divisor r) ∧
  (Exc.unsupportedOperation.cause = .unsupportedOperation ∧ Exc.unsupportedOperation.info = .empty) ∧
  (∀ a, (Exc.addressMem a).cause = .addressError ∧ (Exc.addressMem a).info = .mem a) ∧
  (∀ k, (Exc.addressReg k).cause = .addressError ∧ (Exc.addressReg k).info = .reg k)

/-- `60_exceptions.md` R206: the abort is the same for every cause: FR gets the cause, the `pc` of the
faulting step, the info, and for UnknownOpcode alone the trace; RS becomes HALTED_FAULT, exit status 1;
nothing else changes. -/
def Obligations.AbortRecordsTheFaultAndChangesNothingElse : Prop :=
  ∀ s : State,
    (∀ op, Aborted s (s.takeException (.unknownOpcode op)) .unknownOpcode (.opcode op) (some s.trace)) ∧
    (∀ r, Aborted s (s.takeException (.divisionByZero r)) .divisionByZero (.divisor r) none) ∧
    Aborted s (s.takeException .unsupportedOperation) .unsupportedOperation .empty none ∧
    (∀ a, Aborted s (s.takeException (.addressMem a)) .addressError (.mem a) none) ∧
    (∀ k, Aborted s (s.takeException (.addressReg k)) .addressError (.reg k) none) ∧
    ∀ e, (s.takeException e).exitStatus = some 1

/-- `60_exceptions.md` R206 over a whole step: a step that ends in HALTED_FAULT leaves x, M, FL, `pc` and
OUT as they were, records its own address, and gives exit status 1. -/
def Obligations.EveryFaultIsPrecise : Prop :=
  ∀ (c : Config) (s t : State), s.rs = .running → stepWith c s = .next t → t.rs = .haltedFault →
    ∃ f : FaultRecord, Aborted s t f.cause f.info f.trace ∧ t.exitStatus = some 1

/-- `60_exceptions.md` R201, R207: an unregistered byte at `pc` records UnknownOpcode, the byte, and the
trace: `pc`, the bytes from `pc` on (absent beyond address 255) and the eight registers. Which three bytes
the trace shows is general knowledge in the spec (D15) and presumed here (log 11). -/
def Obligations.UnknownOpcodeRecordsTheTrace : Prop :=
  ∀ (c : Config) (s : State), s.rs = .running → s.pc ≤ 255 → (∀ m, c.opcodeMap m ≠ s.peek s.pc) →
    Answers (stepWith c s) fun t => ∃ tr : Trace,
      Aborted s t .unknownOpcode (.opcode (s.peek s.pc)) (some tr) ∧
      tr.pc = s.pc ∧ tr.m0 = s.peek s.pc ∧
      (tr.m1 = if s.pc + 1 ≤ 255 then some (s.peek (s.pc + 1)) else none) ∧
      (tr.m2 = if s.pc + 2 ≤ 255 then some (s.peek (s.pc + 2)) else none) ∧
      ∀ q : RegIndex, tr.regs[q] = s.getReg q

/-- `42_alu.md` R152, `60_exceptions.md` R203: an operation name outside the fixed set fails with
UnsupportedOperation, and no step of any program raises it. That the name is a mnemonic is the model's
choice (log 9). -/
def Obligations.UnsupportedOperationIsUnreachable : Prop :=
  (∀ (m : Mnemonic) (d r : RegIndex) (s : State),
    aluApply m d r s = .error .unsupportedOperation ↔
      m ∈ [.hlt, .ldi, .prn, .push, .pop, .call, .ret, .jmp, .jeq, .jne]) ∧
  ∀ (c : Config) (s t : State), s.rs = .running → stepWith c s = .next t → t.rs = .haltedFault →
    ∀ f, t.fr = some f → f.cause ≠ .unsupportedOperation

/-- `60_exceptions.md` R208: nothing leaves HALTED_FAULT but reset: any number of steps changes nothing,
load and start are refused, and reset clears the fault record. That the model's step then answers the same
state is deduced (log 5). -/
def Obligations.AbortIsTerminalUntilReset : Prop :=
  ∀ s : State, s.rs = .haltedFault →
    (∀ k : Nat, Host.Core.run Sys2Proof.core k s = .next s) ∧
    (∀ bytes, hostLoad bytes s = .refused .loadOutsideIdle) ∧
    hostStart s = .refused .startOutsideIdle ∧
    ∀ c : Config, Answers (hostStep c .reset s) fun t => t.rs = .idle ∧ t.fr = none

/-! ## The step -/

/-- `40_execution_cycle.md` R110: outside RUNNING no step is taken and nothing changes. That the model's step
then answers the same state is deduced (log 5). -/
def Obligations.NoStepOutsideRunning : Prop :=
  ∀ (c : Config) (s : State), s.rs ≠ .running → stepWith c s = .next s

/-- `40_execution_cycle.md` R113: from a RUNNING state a step yields exactly one next state, which is
RUNNING, HALTED_OK or HALTED_FAULT. -/
def Obligations.RunningStepYieldsOneNextState : Prop :=
  ∀ (c : Config) (s : State), s.rs = .running →
    ∃ t, stepWith c s = .next t ∧ (t.rs = .running ∨ t.rs = .haltedOk ∨ t.rs = .haltedFault) ∧
      ∀ u, stepWith c s = .next u → u = t

/-- `40_execution_cycle.md` R111: the four parts of a step in their order, for any injective OPCODE_MAP:
the opcode fetch, the unknown opcode, the prefetch of both operand bytes (however short the instruction),
and the handler on the bytes fetched. -/
def Obligations.StepFetchesInOrder : Prop :=
  ∀ (c : Config) (s : State), c.OpcodeInjective → s.rs = .running →
    (255 < s.pc → Answers (stepWith c s) fun t => Aborted s t .addressError (.mem s.pc) none) ∧
    (s.pc ≤ 255 → (∀ m, c.opcodeMap m ≠ s.peek s.pc) → Answers (stepWith c s) fun t =>
      ∃ tr, Aborted s t .unknownOpcode (.opcode (s.peek s.pc)) tr) ∧
    ∀ m, c.opcodeMap m = s.peek s.pc →
      (s.pc = 255 ∨ s.pc = 254 → Answers (stepWith c s) fun t =>
        Aborted s t .addressError (.mem 256) none) ∧
      (s.pc ≤ 253 → stepWith c s = exec (assemble m (s.peek (s.pc + 1)) (s.peek (s.pc + 2))) s)

/-- A step runs the decoded instruction (`40_execution_cycle.md` R111 part 4): when the bytes at `pc`, with
the two the prefetch needs, decode to `i`, the step is the meaning of `i`. It adds nothing around it. -/
def Obligations.StepRunsTheDecodedInstruction : Prop :=
  ∀ (s : State) (i : Instr) (rest : List Byte), s.rs = .running → s.pc ≤ 253 →
    decode Config.engine (fetchedBytes s) = .ok (i, rest) → step s = exec i s

/-- `70_reset_and_hazards.md` R247: a run ends well at a step exactly when that step executed a HLT. -/
def Obligations.OnlyHltEndsTheRunWell : Prop :=
  ∀ (c : Config) (s t : State), c.OpcodeInjective → s.rs = .running → stepWith c s = .next t →
    (t.rs = .haltedOk ↔ s.pc ≤ 253 ∧ s.peek s.pc = c.opcodeMap .hlt)

/-- `10_state.md` R26: `pc` stays in 0..256 and reaches 256 only past a 3-byte instruction that ends at
address 255 (the spec's own derivation in R26); a step from beyond 255 raises AddressError(mem, pc). -/
def Obligations.PcReaches256OnlyFrom253 : Prop :=
  ∀ (c : Config) (s : State), s.rs = .running →
    (∀ t, stepWith c s = .next t → s.pc ≤ 255 → t.pc ≤ 256 ∧
      (t.pc = 256 → s.pc = 253 ∧ ∃ m, c.opcodeMap m = s.peek s.pc ∧ m.length = 3)) ∧
    (255 < s.pc → Answers (stepWith c s) fun t => Aborted s t .addressError (.mem s.pc) none)

/-- Fetch coherence (`20_memory.md` R61, `95_test_vectors.md` P4): a PUSH that overwrites the operand byte
of the PRN after it changes what that PRN prints. -/
def Obligations.PushedOperandByteIsFetched : Prop :=
  ∀ (c : Config) (s : State) (d q : RegIndex), c.OpcodeInjective → s.rs = .running → s.pc ≤ 251 →
    s.peek s.pc = c.opcodeMap .push → Names (s.peek (s.pc + 1)) d →
    s.peek (s.pc + 2) = c.opcodeMap .prn → (s.getReg 7).toNat = s.pc + 4 →
    d ≠ 7 → Names (s.getReg d) q → q ≠ 7 →
    Answers (stepWith c s) fun s1 => Answers (stepWith c s1) fun s2 =>
      s2.out = s.out ++ [s.getReg q] ∧ s2.pc = s.pc + 4 ∧ s2.rs = .running

/-- Reset meets the invariant of the machine. -/
def Obligations.ResetMeetsTheInvariant : Prop := Inv State.reset

/-- Every step keeps the invariant of the machine, for every OPCODE_MAP and from every state that meets it:
the memory canonical and within its 256 cells, `pc` within 0..256, a fault recorded exactly in
HALTED_FAULT, with the address where `pc` stands, never UnsupportedOperation, and with a trace exactly for
UnknownOpcode. -/
def Obligations.EveryStepKeepsTheInvariant : Prop :=
  ∀ (c : Config) (s t : State), Inv s → stepWith c s = .next t → Inv t

/-- A run of any length of any image that the host can load answers a next state that meets the invariant:
no program makes the engine stop without one. The run is at the default OPCODE_MAP, which is presumed (log 1);
once it has ended, that the model's step answers the same state is deduced (log 5). The three calls as
functions are the model's form (log 14), and so is the canonical memory in the invariant (log 2), whose trace
bytes are presumed (log 11). -/
def Obligations.EveryRunOfEveryImageKeepsTheInvariant : Prop :=
  ∀ (image : List Byte) (before : State) (k : Nat), image.length ≤ 256 →
    Answers (launch Config.engine image before) fun s =>
      ∃ t, Host.Core.run Sys2Proof.core k s = .next t ∧ Inv t ∧ t.rs ≠ .idle

/-! ## Memory -/

/-- `20_memory.md` R51: the checked read and write: within 0..255 a read returns M[a] and a write changes
that cell alone; at any other address the access does not happen and AddressError(mem, a) is raised. -/
def Obligations.MemoryAccessIsChecked : Prop :=
  ∀ (s : State) (a : Int) (v : Byte),
    (0 ≤ a → a ≤ 255 →
      memRead a s = .ok (s.peek a.toNat) ∧
      ∃ t, memWrite a v s = .ok t ∧ t.peek a.toNat = v ∧ KeepsMemoryBut s t a.toNat ∧
        KeepsRegs s t ∧ t.pc = s.pc ∧ t.fl = s.fl ∧ t.out = s.out ∧ KeepsRun s t) ∧
    (a < 0 ∨ 255 < a →
      memRead a s = .error (.addressMem a) ∧ memWrite a v s = .error (.addressMem a))

/-- Memories in canonical form that read the same at every cell are the same list, so equal memories are
equal data (the model's own form; log 2). -/
def Obligations.CanonicalMemoryIsDeterminedByItsReads : Prop :=
  ∀ m n : Memory, Memory.wf m = true → Memory.wf n = true →
    (∀ a : Nat, a < 256 → Memory.read m a = Memory.read n a) → m = n

/-! ## Reset and the host -/

/-- `10_state.md` R36: the state after reset, for any MEM_INIT. That FR and OUT are empty is the spec's own
derivation there, from R30 and R34. -/
def Obligations.ResetLeavesTheSpecifiedState : Prop :=
  ∀ c : Config,
    (∀ q : RegIndex, q ≠ 7 → (State.resetWith c).getReg q = 0x00) ∧
    (State.resetWith c).getReg 7 = 0xF4 ∧ (State.resetWith c).pc = 0 ∧ (State.resetWith c).fl = .none ∧
    (State.resetWith c).rs = .idle ∧ (State.resetWith c).fr = none ∧ (State.resetWith c).out = [] ∧
    ∀ a : Nat, a < 256 → (State.resetWith c).peek a = c.memInit a

/-- The model's reset state is the reset state of the default MEM_INIT, zeros, which is a choice of the
spec from general knowledge (`92_eei_decisions.md` D9; log 2). -/
def Obligations.ResetIsTheDefaultReset : Prop := State.resetWith Config.engine = State.reset

/-- `20_memory.md` R63: `load` in IDLE writes bytes[i] to M[i], ascending, leaves every other cell and
everything else as it was; an image longer than 256 bytes, and a load outside IDLE, are refused. -/
def Obligations.LoadWritesTheImageAndNothingElse : Prop :=
  ∀ (s : State) (bytes : List Byte),
    (s.rs = .idle → bytes.length ≤ 256 → Answers (hostLoad bytes s) fun t =>
      (∀ (i : Nat) (h : i < bytes.length), t.peek i = bytes[i]) ∧
      (∀ a : Nat, bytes.length ≤ a → t.peek a = s.peek a) ∧
      KeepsRegs s t ∧ t.pc = s.pc ∧ t.fl = s.fl ∧ t.out = s.out ∧ KeepsRun s t) ∧
    (s.rs = .idle → 256 < bytes.length → hostLoad bytes s = .refused .imageTooLong) ∧
    (s.rs ≠ .idle → hostLoad bytes s = .refused .loadOutsideIdle)

/-- `70_reset_and_hazards.md` R240: reset, load and start, from any state, leave the engine RUNNING at
address 0 with the reset values and the image in memory, the rest of it as MEM_INIT (R250). The three calls
as functions are the model's form (log 14). -/
def Obligations.LaunchStartsTheImageFromReset : Prop :=
  ∀ (c : Config) (image : List Byte) (before : State), image.length ≤ 256 →
    Answers (launch c image before) fun t =>
      t.rs = .running ∧ t.pc = 0 ∧ t.fl = .none ∧ t.fr = none ∧ t.out = [] ∧
      (∀ q : RegIndex, q ≠ 7 → t.getReg q = 0x00) ∧ t.getReg 7 = 0xF4 ∧
      (∀ (i : Nat) (h : i < image.length), t.peek i = image[i]) ∧
      (∀ a : Nat, image.length ≤ a → a < 256 → t.peek a = c.memInit a)

/-- `70_reset_and_hazards.md` R248: the exit status is 0 for HALTED_OK, 1 for HALTED_FAULT, and there is
none before the end; a run that has ended shows OUT, the status, and FR if the status is 1 (R247). -/
def Obligations.ExitStatusIsAFunctionOfTheRunState : Prop :=
  ∀ s : State,
    (s.exitStatus = some 0 ↔ s.rs = .haltedOk) ∧ (s.exitStatus = some 1 ↔ s.rs = .haltedFault) ∧
    (s.exitStatus = none ↔ s.rs = .idle ∨ s.rs = .running) ∧
    (s.rs = .haltedOk → s.observe = some { out := s.out, exitStatus := 0, fault := none }) ∧
    (s.rs = .haltedFault → s.observe = some { out := s.out, exitStatus := 1, fault := s.fr })

/-! ## Encoding -/

/-- `30_encoding.md` R92, R84: for every injective OPCODE_MAP and every instruction, well-formed or not, the
decoder reads the encoding back, with every operand, and leaves the bytes after it. -/
def Obligations.DecodeReadsEveryEncodingBack : Prop :=
  ∀ (c : Config) (i : Instr) (rest : List Byte), c.OpcodeInjective →
    decode c (encode c i ++ rest) = .ok (i, rest) ∧ (encode c i).length = i.mnemonic.length

/-- `30_encoding.md` R92, last sentence: decode followed by encode returns the bytes of the instruction's
own length, for any OPCODE_MAP. -/
def Obligations.EncodeReturnsTheDecodedBytes : Prop :=
  ∀ (c : Config) (bytes rest : List Byte) (i : Instr),
    decode c bytes = .ok (i, rest) → bytes = encode c i ++ rest

/-- `30_encoding.md` R86: a byte that is the opcode of no mnemonic is an unknown opcode, and no byte that is
one is. -/
def Obligations.UnregisteredBytesAreUnknownOpcodes : Prop :=
  ∀ (c : Config) (op : Byte) (rest : List Byte),
    decode c (op :: rest) = .error (.unknownOpcode op) ↔ ∀ m, c.opcodeMap m ≠ op

/-- The default OPCODE_MAP (`30_encoding.md` R84, presumed there and in log 1) is injective, so 20 bytes
are registered and the other 236 are not. -/
def Obligations.DefaultMapRegistersTwentyBytes : Prop :=
  Config.engine.OpcodeInjective ∧
  ((List.range 256).filter fun n => (lookup Config.engine (BitVec.ofNat 8 n)).isSome).length = 20

/-- `30_encoding.md` R88: the byte after a one-operand instruction and the two bytes after an instruction
without operands play no part in it. -/
def Obligations.UnusedOperandBytesAreIgnored : Prop :=
  ∀ (m : Mnemonic) (a b a' b' : Byte),
    (m.format = .op0 → assemble m a b = assemble m a' b') ∧
    (m.format = .op1R → assemble m a b = assemble m a b')

/-- Words written out from the tables of `30_encoding.md` and `95_test_vectors.md` 2.1, at the default
OPCODE_MAP (presumed, log 1), decode to their instructions; 0x00, 0xA1, 0x65 and 0xFF are unknown. -/
def Obligations.SampleWordsDecode : Prop :=
  decode Config.engine [0b00000001] = .ok (.hlt, []) ∧
  decode Config.engine [0b10000010, 0x03, 0x0F] = .ok (.ldi 3 15, []) ∧
  decode Config.engine [0b01000111, 0x04] = .ok (.prn 4, []) ∧
  decode Config.engine [0b10100100, 0x02, 0x03] = .ok (.mod 2 3, []) ∧
  decode Config.engine [0b01000101, 0x02] = .ok (.push 2, []) ∧
  decode Config.engine [0b01010000, 0x01] = .ok (.call 1, []) ∧
  decode Config.engine [0x00] = .error (.unknownOpcode 0x00) ∧
  decode Config.engine [0xA1, 0x00, 0x01] = .error (.unknownOpcode 0xA1) ∧
  decode Config.engine [0x65, 0x00] = .error (.unknownOpcode 0x65) ∧
  decode Config.engine [0xFF] = .error (.unknownOpcode 0xFF)

/-- `10_state.md` R28: the byte layout of FL, 0b00000LGE, which the spec takes from general knowledge (D10)
and the model presumes (log 10). -/
def Obligations.FlagsByteLayout : Prop :=
  ∀ f : Flags,
    (f.toByte.getLsbD 0 = true ↔ f = .equal) ∧ (f.toByte.getLsbD 1 = true ↔ f = .greater) ∧
    (f.toByte.getLsbD 2 = true ↔ f = .less) ∧ ∀ i : Nat, 3 ≤ i → i < 8 → f.toByte.getLsbD i = false
end

