-- ==== Sys2Proof/Laws/Decode.lean ====
section
/-! SUPPORT. The laws of the Dispatch Table: what `lookup` finds, for any injective OPCODE_MAP. -/

namespace Sys2Proof

theorem Mnemonic.mem_all (m : Mnemonic) : m ∈ Mnemonic.all := by cases m <;> decide

theorem lookup_some {c : Config} {op : Byte} {m : Mnemonic} (h : lookup c op = some m) :
    c.opcodeMap m = op := by
  simpa using List.find?_some h

/-- A byte is not registered exactly when it is the opcode of no mnemonic. -/
theorem lookup_eq_none {c : Config} {op : Byte} :
    lookup c op = none ↔ ∀ m, c.opcodeMap m ≠ op := by
  simp [lookup, List.find?_eq_none, Mnemonic.mem_all]

/-- Under an injective map each mnemonic's opcode finds that mnemonic. -/
theorem lookup_opcode {c : Config} (hc : c.OpcodeInjective) (m : Mnemonic) :
    lookup c (c.opcodeMap m) = some m := by
  cases h : lookup c (c.opcodeMap m) with
  | none => exact absurd rfl (lookup_eq_none.mp h m)
  | some n => rw [hc n m (lookup_some h)]

theorem engine_injective : Config.engine.OpcodeInjective := by
  intro m n h
  cases m <;> cases n <;> first | rfl | exact absurd h (by decide)

end Sys2Proof
end

