-- ==== Sys2Proof/Laws/Memory.lean ====
section
/-! SUPPORT. The laws of the memory: a write is read back and leaves every other address alone, every
operation keeps the canonical form, and equal reads make equal memories. -/

namespace Sys2Proof.Machine.Memory

theorem read_erase_self (m : Memory) (a : Nat) : read (erase m a) a = unlisted := by
  induction m with
  | nil => rfl
  | cons cell rest ih =>
    obtain ⟨k, u⟩ := cell
    by_cases h : k = a
    · simpa [erase, h] using ih
    · simpa [erase, h, read] using ih

theorem read_erase_ne (m : Memory) {a b : Nat} (hb : b ≠ a) : read (erase m a) b = read m b := by
  induction m with
  | nil => rfl
  | cons cell rest ih =>
    obtain ⟨k, u⟩ := cell
    by_cases h : k = a
    · subst h
      simpa [erase, read, hb.symm] using ih
    · by_cases hk : k = b
      · simp [erase, read, hk, hb]
      · simpa [erase, h, read, hk] using ih

theorem read_insert (m : Memory) (a b : Nat) (v : Byte) (hm : ∀ cell ∈ m, cell.1 ≠ a) :
    read (insert m a v) b = if b = a then v else read m b := by
  induction m with
  | nil => simp [insert, read, eq_comm]
  | cons cell rest ih =>
    obtain ⟨k, u⟩ := cell
    have hk : k ≠ a := hm (k, u) (by simp)
    have hrest := ih fun c hc => hm c (by simp [hc])
    by_cases hlt : a < k
    · simp [insert, hlt, read, eq_comm]
    · by_cases hkb : k = b
      · subst hkb
        simp [insert, hlt, read, hk]
      · simp [insert, hlt, read, hkb, hrest]

theorem mem_erase {m : Memory} {a : Nat} {cell : Host.Cell} :
    cell ∈ erase m a ↔ cell ∈ m ∧ cell.1 ≠ a := by
  simp [erase]

/-- A read after a write, at any address, of any memory. -/
theorem read_write (m : Memory) (a b : Nat) (v : Byte) :
    read (write m a v) b = if b = a then v else read m b := by
  unfold write
  split
  · next hv =>
    split
    · next h => rw [h, read_erase_self, hv]
    · next h => exact read_erase_ne m h
  · rw [read_insert _ _ _ _ fun c hc => (mem_erase.mp hc).2]
    split
    · rfl
    · next h => exact read_erase_ne m h

@[simp] theorem read_write_self (m : Memory) (a : Nat) (v : Byte) : read (write m a v) a = v := by
  simp [read_write]

theorem read_write_ne (m : Memory) {a b : Nat} (v : Byte) (h : b ≠ a) :
    read (write m a v) b = read m b := by
  simp [read_write, h]

theorem wf_cons {k : Nat} {u : Byte} {rest : Memory} :
    wf ((k, u) :: rest) = true ↔
      k < 256 ∧ u ≠ unlisted ∧ (∀ cell ∈ rest, k < cell.1) ∧ wf rest = true := by
  simp only [wf, Bool.and_eq_true, decide_eq_true_eq, List.all_eq_true, and_assoc]

/-- Every listed address is a cell of the memory. -/
theorem lt_of_mem_wf {m : Memory} (h : wf m = true) : ∀ cell ∈ m, cell.1 < 256 := by
  induction m with
  | nil => simp
  | cons cell rest ih =>
    obtain ⟨k, u⟩ := cell
    obtain ⟨hk, -, -, hrest⟩ := wf_cons.mp h
    intro c hc
    rcases List.mem_cons.mp hc with rfl | hc
    · exact hk
    · exact ih hrest c hc

theorem wf_erase {m : Memory} (h : wf m = true) (a : Nat) : wf (erase m a) = true := by
  induction m with
  | nil => rfl
  | cons cell rest ih =>
    obtain ⟨k, u⟩ := cell
    obtain ⟨hk, hu, hlt, hrest⟩ := wf_cons.mp h
    by_cases hka : k = a
    · have : erase ((k, u) :: rest) a = erase rest a := by simp [erase, hka]
      rw [this]
      exact ih hrest
    · have : erase ((k, u) :: rest) a = (k, u) :: erase rest a := by simp [erase, hka]
      rw [this]
      exact wf_cons.mpr ⟨hk, hu, fun c hc => hlt c (mem_erase.mp hc).1, ih hrest⟩

theorem mem_insert {m : Memory} {a : Nat} {v : Byte} {cell : Host.Cell} :
    cell ∈ insert m a v ↔ cell = (a, v) ∨ cell ∈ m := by
  induction m with
  | nil => simp [insert]
  | cons c rest ih =>
    obtain ⟨k, u⟩ := c
    by_cases hlt : a < k
    · simp [insert, hlt]
    · simp only [insert, hlt, if_false, List.mem_cons, ih]
      tauto

theorem wf_insert {m : Memory} (h : wf m = true) {a : Nat} {v : Byte} (ha : a < 256)
    (hv : v ≠ unlisted) (hm : ∀ cell ∈ m, cell.1 ≠ a) : wf (insert m a v) = true := by
  induction m with
  | nil => simp [insert, wf, ha, hv]
  | cons cell rest ih =>
    obtain ⟨k, u⟩ := cell
    obtain ⟨hk, hu, hlt, hrest⟩ := wf_cons.mp h
    have hka : k ≠ a := hm (k, u) (by simp)
    by_cases hak : a < k
    · simp only [insert, hak, if_true]
      refine wf_cons.mpr ⟨ha, hv, fun c hc => ?_, h⟩
      rcases List.mem_cons.mp hc with rfl | hc
      · exact hak
      · exact hak.trans (hlt c hc)
    · simp only [insert, hak, if_false]
      refine wf_cons.mpr ⟨hk, hu, fun c hc => ?_, ih hrest fun c hc => hm c (by simp [hc])⟩
      rcases mem_insert.mp hc with rfl | hc
      · show k < a
        omega
      · exact hlt c hc

/-- A write to a cell of the memory keeps the canonical form. -/
theorem wf_write {m : Memory} (h : wf m = true) {a : Nat} (v : Byte) (ha : a < 256) :
    wf (write m a v) = true := by
  unfold write
  split
  · exact wf_erase h a
  · next hv => exact wf_insert (wf_erase h a) ha hv fun c hc => (mem_erase.mp hc).2

theorem read_eq_unlisted {m : Memory} {a : Nat} (h : ∀ cell ∈ m, cell.1 ≠ a) : read m a = unlisted := by
  induction m with
  | nil => rfl
  | cons cell rest ih =>
    obtain ⟨k, u⟩ := cell
    have hk : k ≠ a := h (k, u) (by simp)
    simpa [read, hk] using ih fun c hc => h c (by simp [hc])

/-- An address outside the memory is never listed. -/
theorem read_outside {m : Memory} (h : wf m = true) {a : Nat} (ha : 256 ≤ a) : read m a = unlisted :=
  read_eq_unlisted fun c hc => by have := lt_of_mem_wf h c hc; omega

theorem read_lt_head {k a : Nat} {u : Byte} {rest : Memory} (h : wf ((k, u) :: rest) = true)
    (ha : a < k) : read ((k, u) :: rest) a = unlisted := by
  obtain ⟨-, -, hlt, -⟩ := wf_cons.mp h
  refine read_eq_unlisted fun c hc => ?_
  rcases List.mem_cons.mp hc with rfl | hc
  · show k ≠ a
    omega
  · have := hlt c hc
    omega

/-- Bytes written one after another: what each address reads as afterwards. -/
theorem read_writeAll (bytes : List Byte) (m : Memory) (base a : Nat) :
    read (writeAll m base bytes) a =
      if h : base ≤ a ∧ a - base < bytes.length then bytes[a - base]'h.2 else read m a := by
  induction bytes generalizing m base with
  | nil => simp [writeAll]
  | cons v rest ih =>
    rw [writeAll, ih]
    by_cases hab : a = base
    · subst hab
      simp
    · by_cases hin : base + 1 ≤ a ∧ a - (base + 1) < rest.length
      · have hout : base ≤ a ∧ a - base < (v :: rest).length := by simp; omega
        have hidx : a - base = (a - (base + 1)) + 1 := by omega
        rw [dif_pos hin, dif_pos hout]
        simp only [hidx, List.getElem_cons_succ]
      · have hout : ¬ (base ≤ a ∧ a - base < (v :: rest).length) := by simp; omega
        rw [dif_neg hin, dif_neg hout, read_write_ne _ _ hab]

/-- Bytes written within the memory keep the canonical form. -/
theorem wf_writeAll (bytes : List Byte) {m : Memory} (h : wf m = true) (base : Nat)
    (hlen : base + bytes.length ≤ 256) : wf (writeAll m base bytes) = true := by
  induction bytes generalizing m base with
  | nil => exact h
  | cons v rest ih =>
    simp only [List.length_cons] at hlen
    exact ih (wf_write h v (by omega)) (base + 1) (by omega)

end Sys2Proof.Machine.Memory
end

