-- ==== Sys2Proof/Laws/State.lean ====
section
/-! SUPPORT. One lemma for each field of each update of the state, so that no later proof unfolds a record
update. -/

namespace Sys2Proof.Machine.State

variable (s : State) (r q : RegIndex) (v : Byte) (n a : Nat) (f : Flags) (c : RunState) (e : Exc)

@[simp] theorem setReg_mem : (s.setReg r v).mem = s.mem := rfl
@[simp] theorem setReg_pc : (s.setReg r v).pc = s.pc := rfl
@[simp] theorem setReg_fl : (s.setReg r v).fl = s.fl := rfl
@[simp] theorem setReg_rs : (s.setReg r v).rs = s.rs := rfl
@[simp] theorem setReg_fr : (s.setReg r v).fr = s.fr := rfl
@[simp] theorem setReg_out : (s.setReg r v).out = s.out := rfl
@[simp] theorem setReg_peek : (s.setReg r v).peek a = s.peek a := rfl

@[simp] theorem setPc_mem : (s.setPc n).mem = s.mem := rfl
@[simp] theorem setPc_regs : (s.setPc n).regs = s.regs := rfl
@[simp] theorem setPc_pc : (s.setPc n).pc = n := rfl
@[simp] theorem setPc_fl : (s.setPc n).fl = s.fl := rfl
@[simp] theorem setPc_rs : (s.setPc n).rs = s.rs := rfl
@[simp] theorem setPc_fr : (s.setPc n).fr = s.fr := rfl
@[simp] theorem setPc_out : (s.setPc n).out = s.out := rfl
@[simp] theorem setPc_getReg : (s.setPc n).getReg q = s.getReg q := rfl
@[simp] theorem setPc_sp : (s.setPc n).sp = s.sp := rfl
@[simp] theorem setPc_peek : (s.setPc n).peek a = s.peek a := rfl

@[simp] theorem advance_mem : (s.advance n).mem = s.mem := rfl
@[simp] theorem advance_regs : (s.advance n).regs = s.regs := rfl
@[simp] theorem advance_pc : (s.advance n).pc = s.pc + n := rfl
@[simp] theorem advance_fl : (s.advance n).fl = s.fl := rfl
@[simp] theorem advance_rs : (s.advance n).rs = s.rs := rfl
@[simp] theorem advance_fr : (s.advance n).fr = s.fr := rfl
@[simp] theorem advance_out : (s.advance n).out = s.out := rfl
@[simp] theorem advance_getReg : (s.advance n).getReg q = s.getReg q := rfl
@[simp] theorem advance_sp : (s.advance n).sp = s.sp := rfl
@[simp] theorem advance_peek : (s.advance n).peek a = s.peek a := rfl

@[simp] theorem setFl_mem : (s.setFl f).mem = s.mem := rfl
@[simp] theorem setFl_regs : (s.setFl f).regs = s.regs := rfl
@[simp] theorem setFl_pc : (s.setFl f).pc = s.pc := rfl
@[simp] theorem setFl_fl : (s.setFl f).fl = f := rfl
@[simp] theorem setFl_rs : (s.setFl f).rs = s.rs := rfl
@[simp] theorem setFl_fr : (s.setFl f).fr = s.fr := rfl
@[simp] theorem setFl_out : (s.setFl f).out = s.out := rfl
@[simp] theorem setFl_getReg : (s.setFl f).getReg q = s.getReg q := rfl
@[simp] theorem setFl_peek : (s.setFl f).peek a = s.peek a := rfl

@[simp] theorem setRs_mem : (s.setRs c).mem = s.mem := rfl
@[simp] theorem setRs_regs : (s.setRs c).regs = s.regs := rfl
@[simp] theorem setRs_pc : (s.setRs c).pc = s.pc := rfl
@[simp] theorem setRs_fl : (s.setRs c).fl = s.fl := rfl
@[simp] theorem setRs_rs : (s.setRs c).rs = c := rfl
@[simp] theorem setRs_fr : (s.setRs c).fr = s.fr := rfl
@[simp] theorem setRs_out : (s.setRs c).out = s.out := rfl
@[simp] theorem setRs_getReg : (s.setRs c).getReg q = s.getReg q := rfl
@[simp] theorem setRs_peek : (s.setRs c).peek a = s.peek a := rfl

@[simp] theorem emit_mem : (s.emit v).mem = s.mem := rfl
@[simp] theorem emit_regs : (s.emit v).regs = s.regs := rfl
@[simp] theorem emit_pc : (s.emit v).pc = s.pc := rfl
@[simp] theorem emit_fl : (s.emit v).fl = s.fl := rfl
@[simp] theorem emit_rs : (s.emit v).rs = s.rs := rfl
@[simp] theorem emit_fr : (s.emit v).fr = s.fr := rfl
@[simp] theorem emit_out : (s.emit v).out = s.out ++ [v] := rfl
@[simp] theorem emit_getReg : (s.emit v).getReg q = s.getReg q := rfl
@[simp] theorem emit_peek : (s.emit v).peek a = s.peek a := rfl

@[simp] theorem poke_mem : (s.poke a v).mem = Memory.write s.mem a v := rfl
@[simp] theorem poke_regs : (s.poke a v).regs = s.regs := rfl
@[simp] theorem poke_pc : (s.poke a v).pc = s.pc := rfl
@[simp] theorem poke_fl : (s.poke a v).fl = s.fl := rfl
@[simp] theorem poke_rs : (s.poke a v).rs = s.rs := rfl
@[simp] theorem poke_fr : (s.poke a v).fr = s.fr := rfl
@[simp] theorem poke_out : (s.poke a v).out = s.out := rfl
@[simp] theorem poke_getReg : (s.poke a v).getReg q = s.getReg q := rfl
@[simp] theorem poke_sp : (s.poke a v).sp = s.sp := rfl

@[simp] theorem takeException_mem : (s.takeException e).mem = s.mem := rfl
@[simp] theorem takeException_regs : (s.takeException e).regs = s.regs := rfl
@[simp] theorem takeException_pc : (s.takeException e).pc = s.pc := rfl
@[simp] theorem takeException_fl : (s.takeException e).fl = s.fl := rfl
@[simp] theorem takeException_rs : (s.takeException e).rs = .haltedFault := rfl
@[simp] theorem takeException_out : (s.takeException e).out = s.out := rfl
@[simp] theorem takeException_getReg : (s.takeException e).getReg q = s.getReg q := rfl
@[simp] theorem takeException_peek : (s.takeException e).peek a = s.peek a := rfl
@[simp] theorem takeException_trace : (s.takeException e).trace = s.trace := rfl
@[simp] theorem takeException_fr :
    (s.takeException e).fr =
      some ⟨e.cause, s.pc, e.info, if e.cause = .unknownOpcode then some s.trace else none⟩ := rfl

/-- A register write is read back, and no other register sees it. -/
theorem getReg_setReg : (s.setReg r v).getReg q = if q = r then v else s.getReg q := by
  simp only [getReg, setReg, Fin.getElem_fin, Vector.getElem_set, Fin.ext_iff, eq_comm]

@[simp] theorem getReg_setReg_self : (s.setReg r v).getReg r = v := by simp [getReg_setReg]

theorem getReg_setReg_ne {q r : RegIndex} (h : q ≠ r) : (s.setReg r v).getReg q = s.getReg q := by
  simp [getReg_setReg, h]

@[simp] theorem setSp_mem : (s.setSp v).mem = s.mem := rfl
@[simp] theorem setSp_pc : (s.setSp v).pc = s.pc := rfl
@[simp] theorem setSp_fl : (s.setSp v).fl = s.fl := rfl
@[simp] theorem setSp_rs : (s.setSp v).rs = s.rs := rfl
@[simp] theorem setSp_fr : (s.setSp v).fr = s.fr := rfl
@[simp] theorem setSp_out : (s.setSp v).out = s.out := rfl
@[simp] theorem setSp_peek : (s.setSp v).peek a = s.peek a := rfl
@[simp] theorem setSp_sp : (s.setSp v).sp = v := getReg_setReg_self ..

theorem getReg_setSp : (s.setSp v).getReg q = if q = Config.spIndex then v else s.getReg q :=
  getReg_setReg ..

/-- The stack pointer is register 7 (`10_state.md` R24). -/
theorem sp_eq_getReg : s.sp = s.getReg 7 := rfl

theorem sp_setReg : (s.setReg r v).sp = if r = Config.spIndex then v else s.sp := by
  simp only [sp, getReg_setReg, eq_comm]

/-- Two states with the same registers, one by one, and the same other fields are the same. -/
theorem regs_ext {s t : State} (h : ∀ q, t.getReg q = s.getReg q) : t.regs = s.regs := by
  exact Vector.ext fun i hi => h ⟨i, hi⟩

end Sys2Proof.Machine.State
end

