-- ==== Sys2Proof/Laws/Ops.lean ====
section
/-! SUPPORT. For each shared operation, everything it can do, said once. -/

namespace Sys2Proof.Machine

@[simp] theorem except_ok_bind {ε α β : Type} (x : α) (f : α → Except ε β) :
    (Except.ok x >>= f) = f x := rfl

@[simp] theorem except_error_bind {ε α β : Type} (e : ε) (f : α → Except ε β) :
    (Except.error e >>= f) = Except.error e := rfl

/-- A computation that ends well ended well at each of its two parts. -/
theorem bind_eq_ok {ε α β : Type} {x : Except ε α} {f : α → Except ε β} {b : β}
    (h : (x >>= f) = .ok b) : ∃ a, x = .ok a ∧ f a = .ok b := by
  cases x with
  | error e => cases h
  | ok a => exact ⟨a, rfl, h⟩

@[simp] theorem settle_ok (s t : State) : settle s (.ok t) = .next t := rfl
@[simp] theorem settle_error (s : State) (e : Exc) : settle s (.error e) = .next (s.takeException e) := rfl

/-- An instruction that answers `t` either completed with it or took an exception where it began. -/
theorem settle_cases {s t : State} {r : Except Exc State} (h : settle s r = .next t) :
    r = .ok t ∨ ∃ e, r = .error e ∧ t = s.takeException e := by
  cases r with
  | ok u => exact .inl (by cases h; rfl)
  | error e => exact .inr ⟨e, rfl, by cases h; rfl⟩

/-- Every instruction answers a next state. -/
theorem settle_next (s : State) (r : Except Exc State) : ∃ t, settle s r = .next t := by
  cases r with
  | ok u => exact ⟨u, rfl⟩
  | error e => exact ⟨_, rfl⟩

theorem reg_of_names {k : Byte} {r : RegIndex} (h : Names k r) : reg k = .ok r := by
  have hk : k.toNat < 8 := by rw [show k.toNat = r.val from h]; exact r.isLt
  rw [reg, dif_pos hk]
  exact congrArg Except.ok (Fin.ext h)

theorem reg_of_gt {k : Byte} (h : 7 < k.toNat) : reg k = .error (.addressReg k) :=
  dif_neg (by omega)

/-- What the register-index check can do. -/
theorem reg_cases (k : Byte) :
    (∃ r, Names k r ∧ reg k = .ok r) ∨ (7 < k.toNat ∧ reg k = .error (.addressReg k)) := by
  by_cases h : k.toNat < 8
  · exact .inl ⟨⟨k.toNat, h⟩, rfl, dif_pos h⟩
  · exact .inr ⟨by omega, dif_neg h⟩

theorem reg_ok {k : Byte} {r : RegIndex} (h : reg k = .ok r) : Names k r := by
  rcases reg_cases k with ⟨q, hq, hk⟩ | ⟨-, hk⟩
  · rw [hk] at h
    cases h
    exact hq
  · rw [hk] at h
    cases h

theorem reg_error {k : Byte} {e : Exc} (h : reg k = .error e) : e = .addressReg k := by
  rcases reg_cases k with ⟨q, -, hk⟩ | ⟨-, hk⟩
  · rw [hk] at h
    cases h
  · rw [hk] at h
    cases h
    rfl

theorem names_unique {k : Byte} {r q : RegIndex} (hr : Names k r) (hq : Names k q) : r = q :=
  Fin.ext (hr.symm.trans hq)

theorem memRead_of_lt {a : Nat} (s : State) (h : a < 256) : memRead a s = .ok (s.peek a) := by
  simp [memRead, h]

theorem memRead_of_ge {a : Nat} (s : State) (h : 256 ≤ a) : memRead a s = .error (.addressMem a) :=
  if_neg fun hc => absurd hc.2 (by simpa using h)

@[simp] theorem memRead_byte (a : Byte) (s : State) : memRead a.toNat s = .ok (s.peek a.toNat) :=
  memRead_of_lt s a.isLt

@[simp] theorem memWrite_byte (a v : Byte) (s : State) : memWrite a.toNat v s = .ok (s.poke a.toNat v) := by
  simp [memWrite, a.isLt]

theorem decrementSp_of_ne {s : State} (h : s.sp.toNat ≠ 0) :
    decrementSp s = .ok (s.setSp (BitVec.ofNat 8 (s.sp.toNat - 1))) := if_neg h

theorem decrementSp_of_eq {s : State} (h : s.sp.toNat = 0) : decrementSp s = .error (.addressMem (-1)) :=
  if_pos h

theorem incrementSp_of_ne {s : State} (h : s.sp.toNat ≠ 255) :
    incrementSp s = .ok (s.setSp (BitVec.ofNat 8 (s.sp.toNat + 1))) := if_neg h

theorem incrementSp_of_eq {s : State} (h : s.sp.toNat = 255) : incrementSp s = .error (.addressMem 256) :=
  if_pos h

/-- The decremented stack pointer as a number. -/
theorem toNat_pred_sp {v : Byte} (_ : v.toNat ≠ 0) : (BitVec.ofNat 8 (v.toNat - 1)).toNat = v.toNat - 1 := by
  have := v.isLt
  simp only [BitVec.toNat_ofNat]
  omega

/-- The incremented stack pointer as a number. -/
theorem toNat_succ_sp {v : Byte} (h : v.toNat ≠ 255) : (BitVec.ofNat 8 (v.toNat + 1)).toNat = v.toNat + 1 := by
  have := v.isLt
  simp only [BitVec.toNat_ofNat]
  omega

@[simp] theorem trunc8_toNat (n : Nat) : (trunc8 n).toNat = n % 256 := by simp [trunc8]

namespace State

theorem peek_poke (s : State) (a b : Nat) (v : Byte) :
    (s.poke a v).peek b = if b = a then v else s.peek b := Memory.read_write ..

@[simp] theorem peek_poke_self (s : State) (a : Nat) (v : Byte) : (s.poke a v).peek a = v :=
  Memory.read_write_self ..

theorem peek_poke_ne (s : State) {a b : Nat} (v : Byte) (h : b ≠ a) : (s.poke a v).peek b = s.peek b :=
  Memory.read_write_ne _ _ h

/-- Everything the abort does (`60_exceptions.md` R206). -/
theorem takeException_aborted (s : State) (e : Exc) :
    Aborted s (s.takeException e) e.cause e.info (if e.cause = .unknownOpcode then some s.trace else none) :=
  ⟨rfl, rfl, fun _ => rfl, rfl, rfl, fun _ => rfl, rfl⟩

end State

end Sys2Proof.Machine
end

