-- ==== Sys2Proof/Laws/Exec.lean ====
section
/-! SUPPORT. One equation for each meaning on operands that name registers, and one inversion for the whole
of `exec`: what an instruction can do when it answers a next state. -/

namespace Sys2Proof.Machine

/-- What an instruction that COMPLETED did to the state: the one list of effects from which the frames and
the invariants are read off. -/
inductive Effect (s : State) : Instr → State → Prop where
  | hlt : Effect s .hlt ((s.setRs .haltedOk).advance 1)
  | ldi {a imm d} : Names a d → Effect s (.ldi a imm) ((s.setReg d imm).advance 3)
  | prn {a d} : Names a d → Effect s (.prn a) ((s.emit (s.getReg d)).advance 2)
  | add {a b d r} : Names a d → Names b r →
      Effect s (.add a b) ((s.setReg d (aluAdd (s.getReg d) (s.getReg r))).advance 3)
  | mul {a b d r} : Names a d → Names b r →
      Effect s (.mul a b) ((s.setReg d (aluMul (s.getReg d) (s.getReg r))).advance 3)
  | mod {a b d r} : Names a d → Names b r → (s.getReg r).toNat ≠ 0 →
      Effect s (.mod a b) ((s.setReg d (aluMod (s.getReg d) (s.getReg r))).advance 3)
  | and {a b d r} : Names a d → Names b r →
      Effect s (.and a b) ((s.setReg d (aluAnd (s.getReg d) (s.getReg r))).advance 3)
  | or {a b d r} : Names a d → Names b r →
      Effect s (.or a b) ((s.setReg d (aluOr (s.getReg d) (s.getReg r))).advance 3)
  | xor {a b d r} : Names a d → Names b r →
      Effect s (.xor a b) ((s.setReg d (aluXor (s.getReg d) (s.getReg r))).advance 3)
  | shl {a b d r} : Names a d → Names b r →
      Effect s (.shl a b) ((s.setReg d (aluShl (s.getReg d) (s.getReg r))).advance 3)
  | shr {a b d r} : Names a d → Names b r →
      Effect s (.shr a b) ((s.setReg d (aluShr (s.getReg d) (s.getReg r))).advance 3)
  | not {a d} : Names a d → Effect s (.not a) ((s.setReg d (aluNot (s.getReg d))).advance 2)
  | push {a d} : Names a d → s.sp.toNat ≠ 0 →
      Effect s (.push a)
        (((s.setSp (BitVec.ofNat 8 (s.sp.toNat - 1))).poke (s.sp.toNat - 1)
          ((s.setSp (BitVec.ofNat 8 (s.sp.toNat - 1))).getReg d)).advance 2)
  | pop {a d} : Names a d → (s.setReg d (s.peek s.sp.toNat)).sp.toNat ≠ 255 →
      Effect s (.pop a)
        (((s.setReg d (s.peek s.sp.toNat)).setSp
          (BitVec.ofNat 8 ((s.setReg d (s.peek s.sp.toNat)).sp.toNat + 1))).advance 2)
  | call {a d} : Names a d → s.sp.toNat ≠ 0 →
      Effect s (.call a)
        (((s.setSp (BitVec.ofNat 8 (s.sp.toNat - 1))).poke (s.sp.toNat - 1) (trunc8 (s.pc + 2))).setPc
          ((s.setSp (BitVec.ofNat 8 (s.sp.toNat - 1))).getReg d).toNat)
  | ret : s.sp.toNat ≠ 255 →
      Effect s .ret ((s.setPc (s.peek s.sp.toNat).toNat).setSp (BitVec.ofNat 8 (s.sp.toNat + 1)))
  | cmp {a b d r} : Names a d → Names b r →
      Effect s (.cmp a b) ((s.setFl (compareFlags (s.getReg d) (s.getReg r))).advance 3)
  | jmp {a d} : Names a d → Effect s (.jmp a) (s.setPc (s.getReg d).toNat)
  | jeq {a d} : Names a d →
      Effect s (.jeq a) (if s.fl = .equal then s.setPc (s.getReg d).toNat else s.advance 2)
  | jne {a d} : Names a d →
      Effect s (.jne a) (if s.fl ≠ .equal then s.setPc (s.getReg d).toNat else s.advance 2)

variable {a b : Byte} {d r : RegIndex} (s : State)

/-- The ALU operations, NOT and CMP apart: the mnemonic, and the result. -/
theorem aluTwo_of_names (operation : Mnemonic) (ha : Names a d) (hb : Names b r) :
    aluTwo operation a b s =
      settle s (aluApply operation d r s >>= fun t => .ok (t.advance operation.length)) := by
  simp [aluTwo, reg_of_names ha, reg_of_names hb]

theorem execHlt_eq : execHlt s = .next ((s.setRs .haltedOk).advance 1) := rfl

theorem execLdi_eq (imm : Byte) (ha : Names a d) :
    execLdi a imm s = .next ((s.setReg d imm).advance 3) := by
  simp [execLdi, reg_of_names ha, zext8]

theorem execPrn_eq (ha : Names a d) : execPrn a s = .next ((s.emit (s.getReg d)).advance 2) := by
  simp [execPrn, reg_of_names ha]

theorem execNot_eq (ha : Names a d) :
    execNot a s = .next ((s.setReg d (aluNot (s.getReg d))).advance 2) := by
  simp [execNot, reg_of_names ha, aluApply, Mnemonic.length, Mnemonic.format, Format.length]

theorem execPush_eq (ha : Names a d) (hsp : s.sp.toNat ≠ 0) :
    execPush a s =
      let s1 := s.setSp (BitVec.ofNat 8 (s.sp.toNat - 1))
      .next ((s1.poke (s.sp.toNat - 1) (s1.getReg d)).advance 2) := by
  simp only [execPush, reg_of_names ha, decrementSp_of_ne hsp, except_ok_bind, memWrite_byte,
    State.setSp_sp, toNat_pred_sp hsp, settle_ok]

theorem execPop_eq (ha : Names a d)
    (hsp : ((s.setReg d (s.peek s.sp.toNat)).sp).toNat ≠ 255) :
    execPop a s =
      let s1 := s.setReg d (s.peek s.sp.toNat)
      .next ((s1.setSp (BitVec.ofNat 8 (s1.sp.toNat + 1))).advance 2) := by
  simp only [execPop, reg_of_names ha, memRead_byte, except_ok_bind, incrementSp_of_ne hsp, settle_ok]

theorem execCall_eq (ha : Names a d) (hsp : s.sp.toNat ≠ 0) :
    execCall a s =
      let s1 := s.setSp (BitVec.ofNat 8 (s.sp.toNat - 1))
      .next ((s1.poke (s.sp.toNat - 1) (trunc8 (s.pc + 2))).setPc (s1.getReg d).toNat) := by
  simp only [execCall, reg_of_names ha, decrementSp_of_ne hsp, except_ok_bind, memWrite_byte,
    State.setSp_sp, State.setSp_pc, State.poke_getReg, toNat_pred_sp hsp, settle_ok]

theorem execRet_eq (hsp : s.sp.toNat ≠ 255) :
    execRet s =
      .next ((s.setPc (s.peek s.sp.toNat).toNat).setSp (BitVec.ofNat 8 (s.sp.toNat + 1))) := by
  have hsp' : (s.setPc (s.peek s.sp.toNat).toNat).sp.toNat ≠ 255 := hsp
  simp only [execRet, memRead_byte, except_ok_bind, incrementSp_of_ne hsp', settle_ok, State.setPc_sp]

theorem execJmp_eq (ha : Names a d) : execJmp a s = .next (s.setPc (s.getReg d).toNat) := by
  simp [execJmp, reg_of_names ha]

theorem jumpIf_eq (taken : Bool) (ha : Names a d) :
    jumpIf taken a s = .next (if taken then s.setPc (s.getReg d).toNat else s.advance 2) := by
  simp [jumpIf, reg_of_names ha]

theorem isEqual_iff (f : Flags) : f.isEqual = true ↔ f = .equal := by cases f <;> simp [Flags.isEqual]

/-- The exceptions that an instruction's own meaning can raise, the fetch apart
(`60_exceptions.md` R204, R209 parts 4 and 5). -/
def OwnExc (e : Exc) : Prop := e.cause = .divisionByZero ∨ e.cause = .addressError

theorem ownExc_addressReg (k : Byte) : OwnExc (.addressReg k) := .inr rfl
theorem ownExc_addressMem (k : Int) : OwnExc (.addressMem k) := .inr rfl
theorem ownExc_divisionByZero (q : RegIndex) : OwnExc (.divisionByZero q) := .inl rfl

/-- An instruction either completes with its effect or takes an exception of its own. -/
def Ends (i : Instr) (s t : State) : Prop := Effect s i t ∨ ∃ e, OwnExc e ∧ t = s.takeException e

theorem ends_two (operation : Mnemonic) {i : Instr} {t : State}
    (hok : ∀ d r (u : State), Names a d → Names b r → aluApply operation d r s = .ok u →
      Effect s i (u.advance operation.length))
    (herr : ∀ d r e, aluApply operation d r s = .error e → OwnExc e)
    (h : aluTwo operation a b s = .next t) : Ends i s t := by
  rcases reg_cases a with ⟨d, ha, -⟩ | ⟨-, ha⟩
  · rcases reg_cases b with ⟨r, hb, -⟩ | ⟨-, hb⟩
    · rw [aluTwo_of_names s operation ha hb] at h
      cases hop : aluApply operation d r s with
      | ok u =>
        rw [hop] at h
        cases h
        exact .inl (hok d r _ ha hb hop)
      | error e =>
        rw [hop] at h
        cases h
        exact .inr ⟨e, herr d r e hop, rfl⟩
    · simp [aluTwo, reg_of_names ha, hb] at h
      exact .inr ⟨_, ownExc_addressReg b, h.symm⟩
  · simp [aluTwo, ha] at h
    exact .inr ⟨_, ownExc_addressReg a, h.symm⟩

theorem ends_one {i : Instr} {t : State} {f : RegIndex → Except Exc State}
    (hok : ∀ d (u : State), Names a d → f d = .ok u → Effect s i u)
    (herr : ∀ d e, Names a d → f d = .error e → OwnExc e)
    (h : settle s (reg a >>= f) = .next t) : Ends i s t := by
  rcases reg_cases a with ⟨d, ha, hd⟩ | ⟨-, ha⟩
  · rw [hd, except_ok_bind] at h
    cases hf : f d with
    | ok u =>
      rw [hf] at h
      cases h
      exact .inl (hok d _ ha hf)
    | error e =>
      rw [hf] at h
      cases h
      exact .inr ⟨e, herr d e ha hf, rfl⟩
  · rw [ha, except_error_bind] at h
    cases h
    exact .inr ⟨_, ownExc_addressReg a, rfl⟩

/-- An ALU operation that always succeeds, as `ends_two` wants it. -/
theorem ends_alu (operation : Mnemonic) (f : RegIndex → RegIndex → State) {i : Instr} {t : State}
    (hop : ∀ d r, aluApply operation d r s = .ok (f d r))
    (hok : ∀ d r, Names a d → Names b r → Effect s i ((f d r).advance operation.length))
    (h : aluTwo operation a b s = .next t) : Ends i s t := by
  refine ends_two s operation (fun d r u ha hb hu => ?_) (fun d r e he => ?_) h
  · rw [hop] at hu
    cases hu
    exact hok d r ha hb
  · rw [hop] at he
    cases he

theorem ends_mod {t : State} (h : execMod a b s = .next t) : Ends (.mod a b) s t := by
  refine ends_two s .mod (fun d r u ha hb hu => ?_) (fun d r e he => ?_) h
  · by_cases h0 : (s.getReg r).toNat = 0
    · simp [aluApply, h0] at hu
    · simp only [aluApply, h0, if_false, Except.ok.injEq] at hu
      subst hu
      exact .mod ha hb h0
  · by_cases h0 : (s.getReg r).toNat = 0
    · simp only [aluApply, h0, if_true, Except.error.injEq] at he
      exact he ▸ ownExc_divisionByZero r
    · simp [aluApply, h0] at he

/-- A computation after the decrement of the stack pointer. -/
theorem decrementSp_bind_cases {f : State → Except Exc State} (r : Except Exc State)
    (h : (decrementSp s >>= f) = r) :
    (s.sp.toNat ≠ 0 ∧ f (s.setSp (BitVec.ofNat 8 (s.sp.toNat - 1))) = r) ∨
      r = .error (.addressMem (-1)) := by
  by_cases h0 : s.sp.toNat = 0
  · rw [decrementSp_of_eq h0, except_error_bind] at h
    exact .inr h.symm
  · rw [decrementSp_of_ne h0, except_ok_bind] at h
    exact .inl ⟨h0, h⟩

theorem ends_push {t : State} (h : execPush a s = .next t) : Ends (.push a) s t := by
  refine ends_one s (fun d u ha hu => ?_) (fun d e ha he => ?_) h
  · rcases decrementSp_bind_cases s _ hu with ⟨h0, hu⟩ | hu
    · simp only [memWrite_byte, except_ok_bind] at hu
      simp only [State.setSp_sp, toNat_pred_sp h0, Except.ok.injEq] at hu
      subst hu
      exact .push ha h0
    · cases hu
  · rcases decrementSp_bind_cases s _ he with ⟨h0, he⟩ | he
    · simp only [memWrite_byte, except_ok_bind, reduceCtorEq] at he
    · cases he
      exact ownExc_addressMem _

theorem ends_call {t : State} (h : execCall a s = .next t) : Ends (.call a) s t := by
  refine ends_one s (fun d u ha hu => ?_) (fun d e ha he => ?_) h
  · rcases decrementSp_bind_cases s _ hu with ⟨h0, hu⟩ | hu
    · simp only [memWrite_byte, except_ok_bind] at hu
      simp only [State.setSp_sp, State.setSp_pc, State.poke_getReg, toNat_pred_sp h0,
        Except.ok.injEq] at hu
      subst hu
      exact .call ha h0
    · cases hu
  · rcases decrementSp_bind_cases s _ he with ⟨h0, he⟩ | he
    · simp only [memWrite_byte, except_ok_bind, reduceCtorEq] at he
    · cases he
      exact ownExc_addressMem _

theorem ends_pop {t : State} (h : execPop a s = .next t) : Ends (.pop a) s t := by
  refine ends_one s (fun d u ha hu => ?_) (fun d e ha he => ?_) h
  · simp only [memRead_byte, except_ok_bind] at hu
    by_cases h0 : (s.setReg d (s.peek s.sp.toNat)).sp.toNat = 255
    · rw [incrementSp_of_eq h0, except_error_bind] at hu
      cases hu
    · rw [incrementSp_of_ne h0, except_ok_bind] at hu
      cases hu
      exact .pop ha h0
  · simp only [memRead_byte, except_ok_bind] at he
    by_cases h0 : (s.setReg d (s.peek s.sp.toNat)).sp.toNat = 255
    · rw [incrementSp_of_eq h0, except_error_bind] at he
      cases he
      exact ownExc_addressMem _
    · rw [incrementSp_of_ne h0, except_ok_bind] at he
      cases he

theorem ends_ret {t : State} (h : execRet s = .next t) : Ends .ret s t := by
  by_cases h0 : s.sp.toNat = 255
  · simp only [execRet, memRead_byte, except_ok_bind,
      incrementSp_of_eq (s := s.setPc (s.peek s.sp.toNat).toNat) h0, except_error_bind, settle_error] at h
    cases h
    exact .inr ⟨_, ownExc_addressMem 256, rfl⟩
  · rw [execRet_eq s h0] at h
    cases h
    exact .inl (.ret h0)

theorem ends_jumpIf {taken : Bool} {i : Instr} {t : State}
    (hok : ∀ d, Names a d → Effect s i (if taken then s.setPc (s.getReg d).toNat else s.advance 2))
    (h : jumpIf taken a s = .next t) : Ends i s t := by
  refine ends_one s (fun d u ha hu => ?_) (fun d e _ he => by cases he) h
  cases hu
  exact hok d ha

/-- THE INVERSION OF `exec`: an instruction that answers `t` completed with its effect, or took an
exception of its own with no effect at all. -/
theorem exec_ends {i : Instr} {t : State} (h : exec i s = .next t) : Ends i s t := by
  cases i with
  | hlt =>
    cases h
    exact .inl .hlt
  | ldi a imm =>
    refine ends_one s (fun d u ha hu => ?_) (fun d e _ he => by cases he) h
    cases hu
    exact .ldi ha
  | prn a =>
    refine ends_one s (fun d u ha hu => ?_) (fun d e _ he => by cases he) h
    cases hu
    exact .prn ha
  | add a b => exact ends_alu s .add _ (fun _ _ => rfl) (fun _ _ => .add) h
  | mul a b => exact ends_alu s .mul _ (fun _ _ => rfl) (fun _ _ => .mul) h
  | mod a b => exact ends_mod s h
  | and a b => exact ends_alu s .and _ (fun _ _ => rfl) (fun _ _ => .and) h
  | or a b => exact ends_alu s .or _ (fun _ _ => rfl) (fun _ _ => .or) h
  | xor a b => exact ends_alu s .xor _ (fun _ _ => rfl) (fun _ _ => .xor) h
  | shl a b => exact ends_alu s .shl _ (fun _ _ => rfl) (fun _ _ => .shl) h
  | shr a b => exact ends_alu s .shr _ (fun _ _ => rfl) (fun _ _ => .shr) h
  | not a =>
    refine ends_one s (fun d u ha hu => ?_) (fun d e _ he => by cases he) h
    cases hu
    exact .not ha
  | push a => exact ends_push s h
  | pop a => exact ends_pop s h
  | call a => exact ends_call s h
  | ret => exact ends_ret s h
  | cmp a b => exact ends_alu s .cmp _ (fun _ _ => rfl) (fun _ _ => .cmp) h
  | jmp a =>
    refine ends_one s (fun d u ha hu => ?_) (fun d e _ he => by cases he) h
    cases hu
    exact .jmp ha
  | jeq a =>
    refine ends_jumpIf s (fun d ha => ?_) h
    simpa only [isEqual_iff] using Effect.jeq (s := s) ha
  | jne a =>
    refine ends_jumpIf s (fun d ha => ?_) h
    have := Effect.jne (s := s) ha
    cases hf : s.fl <;> simpa [hf, Flags.isEqual] using this

/-- Every instruction answers a next state, from every state. -/
theorem exec_next (i : Instr) : ∃ t, exec i s = .next t := by
  cases i <;>
    simp only [exec, execHlt, execLdi, execPrn, execAdd, execMul, execMod, execAnd, execOr, execXor,
      execShl, execShr, execNot, execPush, execPop, execCall, execRet, execCmp, execJmp, execJeq, execJne,
      aluTwo, jumpIf] <;>
    exact settle_next s _

/-- The run state and the fault record after an instruction that completed. -/
theorem Effect.run {s t : State} {i : Instr} (h : Effect s i t) :
    t.fr = s.fr ∧ t.rs = if i = .hlt then .haltedOk else s.rs := by
  cases h <;> simp
  all_goals split <;> simp

/-- An instruction that completed keeps the memory's canonical form. -/
theorem Effect.keeps_wf {s t : State} {i : Instr} (h : Effect s i t) (hw : Memory.wf s.mem = true) :
    Memory.wf t.mem = true := by
  cases h
  case push => exact Memory.wf_write hw _ (by have := s.sp.isLt; omega)
  case call => exact Memory.wf_write hw _ (by have := s.sp.isLt; omega)
  case jeq => split <;> exact hw
  case jne => split <;> exact hw
  all_goals exact hw

end Sys2Proof.Machine
end

