-- ==== Sys2Proof/Laws/HostPort.lean ====
section
/-! SUPPORT. What the host's calls leave: the memory under a MEM_INIT, and the state after `load`. -/

namespace Sys2Proof.Machine

theorem Memory.read_ofInit (init : Nat → Byte) {a : Nat} (ha : a < 256) :
    Memory.read (Memory.ofInit init) a = init a := by
  unfold Memory.ofInit
  rw [Memory.read_writeAll, dif_pos (by simpa using ha)]
  simp

theorem Memory.wf_ofInit (init : Nat → Byte) : Memory.wf (Memory.ofInit init) = true := by
  unfold Memory.ofInit
  refine Memory.wf_writeAll _ rfl _ ?_
  rw [List.length_map, List.length_range]
  exact Nat.le_refl 256

@[simp] theorem State.resetWith_mem (c : Config) : (State.resetWith c).mem = Memory.ofInit c.memInit := rfl
@[simp] theorem State.resetWith_regs (c : Config) : (State.resetWith c).regs = State.reset.regs := rfl
@[simp] theorem State.resetWith_getReg (c : Config) (q : RegIndex) :
    (State.resetWith c).getReg q = State.reset.getReg q := rfl
@[simp] theorem State.resetWith_pc (c : Config) : (State.resetWith c).pc = 0 := rfl
@[simp] theorem State.resetWith_fl (c : Config) : (State.resetWith c).fl = .none := rfl
@[simp] theorem State.resetWith_rs (c : Config) : (State.resetWith c).rs = .idle := rfl
@[simp] theorem State.resetWith_fr (c : Config) : (State.resetWith c).fr = none := rfl
@[simp] theorem State.resetWith_out (c : Config) : (State.resetWith c).out = [] := rfl

theorem State.resetWith_peek (c : Config) {a : Nat} (ha : a < 256) :
    (State.resetWith c).peek a = c.memInit a := by
  rw [State.peek, State.resetWith_mem, Memory.read_ofInit _ ha]

/-- What `load` leaves in IDLE of an image that fits (`20_memory.md` R63). -/
theorem hostLoad_idle {s : State} {bytes : List Byte} (hs : s.rs = .idle) (h : bytes.length ≤ 256) :
    hostLoad bytes s = .next { s with mem := Memory.writeAll s.mem 0 bytes } := by
  rw [hostLoad, if_neg (by simp [hs]), if_neg (by simp only [Config.memSize]; omega)]

/-- What `start` leaves in IDLE. -/
theorem hostStart_idle {s : State} (hs : s.rs = .idle) : hostStart s = .next (s.setRs .running) := by
  rw [hostStart, if_neg (by simp [hs])]

/-- What reset, load and start leave together (`70_reset_and_hazards.md` R240). -/
theorem launch_eq (c : Config) {image : List Byte} (before : State) (h : image.length ≤ 256) :
    launch c image before =
      .next ({ State.resetWith c with
               mem := Memory.writeAll (State.resetWith c).mem 0 image }.setRs .running) := by
  simp only [launch, hostStep, hostLoad_idle (State.resetWith_rs c) h]
  exact hostStart_idle rfl

end Sys2Proof.Machine
end

