-- ==== Sys2Proof/Laws/PerInstr.lean ====
section
/-! SUPPORT. Statements about every instruction as syntax, one lemma for each constructor: `EncodedLength`
(an instruction's encoding has the length its table row gives) and `DecodesBack` (the decoder reads an
encoding back, the opcode's lookup being given). -/

namespace Sys2Proof.Laws

/-- The encoding of an instruction has as many bytes as its format (`30_encoding.md` R81, R83). -/
def EncodedLength.Statement (i : Instr) : Prop := ∀ c : Config, (encode c i).length = i.mnemonic.length

/-- Where the table finds an instruction's mnemonic, the decoder reads its encoding back and leaves the
bytes after it (`30_encoding.md` R92). -/
def DecodesBack.Statement (i : Instr) : Prop :=
  ∀ (c : Config) (rest : List Byte), lookup c (c.opcodeMap i.mnemonic) = some i.mnemonic →
    decode c (encode c i ++ rest) = .ok (i, rest)

theorem EncodedLength.hlt : EncodedLength.Statement .hlt := fun _ => rfl
theorem EncodedLength.ldi (a imm : Byte) : EncodedLength.Statement (.ldi a imm) := fun _ => rfl
theorem EncodedLength.prn (a : Byte) : EncodedLength.Statement (.prn a) := fun _ => rfl
theorem EncodedLength.add (a b : Byte) : EncodedLength.Statement (.add a b) := fun _ => rfl
theorem EncodedLength.mul (a b : Byte) : EncodedLength.Statement (.mul a b) := fun _ => rfl
theorem EncodedLength.mod (a b : Byte) : EncodedLength.Statement (.mod a b) := fun _ => rfl
theorem EncodedLength.and (a b : Byte) : EncodedLength.Statement (.and a b) := fun _ => rfl
theorem EncodedLength.or (a b : Byte) : EncodedLength.Statement (.or a b) := fun _ => rfl
theorem EncodedLength.xor (a b : Byte) : EncodedLength.Statement (.xor a b) := fun _ => rfl
theorem EncodedLength.shl (a b : Byte) : EncodedLength.Statement (.shl a b) := fun _ => rfl
theorem EncodedLength.shr (a b : Byte) : EncodedLength.Statement (.shr a b) := fun _ => rfl
theorem EncodedLength.not (a : Byte) : EncodedLength.Statement (.not a) := fun _ => rfl
theorem EncodedLength.push (a : Byte) : EncodedLength.Statement (.push a) := fun _ => rfl
theorem EncodedLength.pop (a : Byte) : EncodedLength.Statement (.pop a) := fun _ => rfl
theorem EncodedLength.call (a : Byte) : EncodedLength.Statement (.call a) := fun _ => rfl
theorem EncodedLength.ret : EncodedLength.Statement .ret := fun _ => rfl
theorem EncodedLength.cmp (a b : Byte) : EncodedLength.Statement (.cmp a b) := fun _ => rfl
theorem EncodedLength.jmp (a : Byte) : EncodedLength.Statement (.jmp a) := fun _ => rfl
theorem EncodedLength.jeq (a : Byte) : EncodedLength.Statement (.jeq a) := fun _ => rfl
theorem EncodedLength.jne (a : Byte) : EncodedLength.Statement (.jne a) := fun _ => rfl

theorem DecodesBack.hlt : DecodesBack.Statement .hlt := fun c _ h => by
  simp only [Instr.mnemonic] at h
  simp [encode, decode, h, Mnemonic.format, assemble]
theorem DecodesBack.ldi (a imm : Byte) : DecodesBack.Statement (.ldi a imm) := fun c _ h => by
  simp only [Instr.mnemonic] at h
  simp [encode, decode, h, Mnemonic.format, assemble]
theorem DecodesBack.prn (a : Byte) : DecodesBack.Statement (.prn a) := fun c _ h => by
  simp only [Instr.mnemonic] at h
  simp [encode, decode, h, Mnemonic.format, assemble]
theorem DecodesBack.add (a b : Byte) : DecodesBack.Statement (.add a b) := fun c _ h => by
  simp only [Instr.mnemonic] at h
  simp [encode, decode, h, Mnemonic.format, assemble]
theorem DecodesBack.mul (a b : Byte) : DecodesBack.Statement (.mul a b) := fun c _ h => by
  simp only [Instr.mnemonic] at h
  simp [encode, decode, h, Mnemonic.format, assemble]
theorem DecodesBack.mod (a b : Byte) : DecodesBack.Statement (.mod a b) := fun c _ h => by
  simp only [Instr.mnemonic] at h
  simp [encode, decode, h, Mnemonic.format, assemble]
theorem DecodesBack.and (a b : Byte) : DecodesBack.Statement (.and a b) := fun c _ h => by
  simp only [Instr.mnemonic] at h
  simp [encode, decode, h, Mnemonic.format, assemble]
theorem DecodesBack.or (a b : Byte) : DecodesBack.Statement (.or a b) := fun c _ h => by
  simp only [Instr.mnemonic] at h
  simp [encode, decode, h, Mnemonic.format, assemble]
theorem DecodesBack.xor (a b : Byte) : DecodesBack.Statement (.xor a b) := fun c _ h => by
  simp only [Instr.mnemonic] at h
  simp [encode, decode, h, Mnemonic.format, assemble]
theorem DecodesBack.shl (a b : Byte) : DecodesBack.Statement (.shl a b) := fun c _ h => by
  simp only [Instr.mnemonic] at h
  simp [encode, decode, h, Mnemonic.format, assemble]
theorem DecodesBack.shr (a b : Byte) : DecodesBack.Statement (.shr a b) := fun c _ h => by
  simp only [Instr.mnemonic] at h
  simp [encode, decode, h, Mnemonic.format, assemble]
theorem DecodesBack.not (a : Byte) : DecodesBack.Statement (.not a) := fun c _ h => by
  simp only [Instr.mnemonic] at h
  simp [encode, decode, h, Mnemonic.format, assemble]
theorem DecodesBack.push (a : Byte) : DecodesBack.Statement (.push a) := fun c _ h => by
  simp only [Instr.mnemonic] at h
  simp [encode, decode, h, Mnemonic.format, assemble]
theorem DecodesBack.pop (a : Byte) : DecodesBack.Statement (.pop a) := fun c _ h => by
  simp only [Instr.mnemonic] at h
  simp [encode, decode, h, Mnemonic.format, assemble]
theorem DecodesBack.call (a : Byte) : DecodesBack.Statement (.call a) := fun c _ h => by
  simp only [Instr.mnemonic] at h
  simp [encode, decode, h, Mnemonic.format, assemble]
theorem DecodesBack.ret : DecodesBack.Statement .ret := fun c _ h => by
  simp only [Instr.mnemonic] at h
  simp [encode, decode, h, Mnemonic.format, assemble]
theorem DecodesBack.cmp (a b : Byte) : DecodesBack.Statement (.cmp a b) := fun c _ h => by
  simp only [Instr.mnemonic] at h
  simp [encode, decode, h, Mnemonic.format, assemble]
theorem DecodesBack.jmp (a : Byte) : DecodesBack.Statement (.jmp a) := fun c _ h => by
  simp only [Instr.mnemonic] at h
  simp [encode, decode, h, Mnemonic.format, assemble]
theorem DecodesBack.jeq (a : Byte) : DecodesBack.Statement (.jeq a) := fun c _ h => by
  simp only [Instr.mnemonic] at h
  simp [encode, decode, h, Mnemonic.format, assemble]
theorem DecodesBack.jne (a : Byte) : DecodesBack.Statement (.jne a) := fun c _ h => by
  simp only [Instr.mnemonic] at h
  simp [encode, decode, h, Mnemonic.format, assemble]

end Sys2Proof.Laws
end

