-- ==== Sys2Proof/Laws/Step.lean ====
section
/-! SUPPORT. What the fetch and the step can do, said once, and the run of several steps. -/

namespace Sys2Proof.Machine

/-- Everything the fetch can do (`40_execution_cycle.md` R111). -/
theorem fetch_cases (c : Config) (s : State) :
    (256 ≤ s.pc ∧ fetch c s = .error (.addressMem s.pc)) ∨
    (s.pc < 256 ∧ lookup c (s.peek s.pc) = none ∧ fetch c s = .error (.unknownOpcode (s.peek s.pc))) ∨
    (∃ m, lookup c (s.peek s.pc) = some m ∧ (s.pc = 255 ∨ s.pc = 254) ∧
      fetch c s = .error (.addressMem 256)) ∨
    (∃ m, lookup c (s.peek s.pc) = some m ∧ s.pc ≤ 253 ∧
      fetch c s = .ok (assemble m (s.peek (s.pc + 1)) (s.peek (s.pc + 2)))) := by
  unfold fetch
  by_cases h : 256 ≤ s.pc
  · exact .inl ⟨h, by rw [memRead_of_ge s h]; rfl⟩
  right
  rw [memRead_of_lt s (by omega)]
  simp only [except_ok_bind]
  cases hl : lookup c (s.peek s.pc) with
  | none => exact .inl ⟨by omega, rfl, rfl⟩
  | some m =>
    right
    by_cases h5 : s.pc = 255
    · refine .inl ⟨m, rfl, .inl h5, ?_⟩
      simp only
      rw [memRead_of_ge s (by omega)]
      simp [h5]
    by_cases h4 : s.pc = 254
    · refine .inl ⟨m, rfl, .inr h4, ?_⟩
      simp only
      rw [memRead_of_lt s (by omega), memRead_of_ge s (by omega)]
      simp [h4]
    · refine .inr ⟨m, rfl, by omega, ?_⟩
      simp only
      rw [memRead_of_lt s (by omega), memRead_of_lt s (by omega)]
      rfl

theorem fetch_error_cause {c : Config} {s : State} {e : Exc} (h : fetch c s = .error e) :
    e.cause ≠ .unsupportedOperation := by
  rcases fetch_cases c s with ⟨-, hf⟩ | ⟨-, -, hf⟩ | ⟨m, -, -, hf⟩ | ⟨m, -, -, hf⟩ <;> rw [hf] at h <;>
    cases h <;> simp [Exc.cause]

/-- A fetch that succeeds: the mnemonic registered at `pc`, with the two bytes after it. -/
theorem fetch_ok {c : Config} {s : State} {i : Instr} (h : fetch c s = .ok i) :
    ∃ m, c.opcodeMap m = s.peek s.pc ∧ s.pc ≤ 253 ∧
      i = assemble m (s.peek (s.pc + 1)) (s.peek (s.pc + 2)) := by
  rcases fetch_cases c s with ⟨-, hf⟩ | ⟨-, -, hf⟩ | ⟨m, -, -, hf⟩ | ⟨m, hl, hp, hf⟩ <;> rw [hf] at h
  · cases h
  · cases h
  · cases h
  · exact ⟨m, lookup_some hl, hp, (Except.ok.inj h).symm⟩

@[simp] theorem assemble_mnemonic (m : Mnemonic) (a b : Byte) : (assemble m a b).mnemonic = m := by
  cases m <;> rfl

theorem stepWith_running {c : Config} {s : State} (h : s.rs = .running) :
    stepWith c s =
      match fetch c s with
      | .ok i => exec i s
      | .error e => .next (s.takeException e) := by
  cases hf : fetch c s <;> simp only [stepWith, h, hf]

/-- Every step answers a next state. -/
theorem stepWith_next (c : Config) (s : State) : ∃ t, stepWith c s = .next t := by
  cases hr : s.rs <;> simp only [stepWith, hr]
  case running =>
    cases hf : fetch c s with
    | ok i => exact exec_next s i
    | error e => exact ⟨_, rfl⟩
  all_goals exact ⟨_, rfl⟩

/-- THE INVERSION OF THE STEP: it completed an instruction that it fetched, or took an exception where it
began, with no effect besides. -/
theorem stepWith_ends {c : Config} {s t : State} (hs : s.rs = .running) (h : stepWith c s = .next t) :
    (∃ i, fetch c s = .ok i ∧ Effect s i t) ∨
      ∃ e : Exc, e.cause ≠ .unsupportedOperation ∧ t = s.takeException e := by
  rw [stepWith_running hs] at h
  cases hf : fetch c s with
  | error e =>
    rw [hf] at h
    cases h
    exact .inr ⟨e, fetch_error_cause hf, rfl⟩
  | ok i =>
    rw [hf] at h
    rcases exec_ends s h with he | ⟨e, he, rfl⟩
    · exact .inl ⟨i, rfl, he⟩
    · exact .inr ⟨e, by rcases he with h | h <;> simp [h], rfl⟩

/-- One more step at the front of a run. -/
theorem run_succ_of_next {M : Host.Core} {s t : M.State} (k : Nat) (h : M.step s = .next t) :
    M.run (k + 1) s = M.run k t := by
  simp only [Host.Core.run, h]

end Sys2Proof.Machine
end

