-- ==== Sys2Proof/Tests/Slice0.lean ====
section
/-! SUPPORT. The model's own tests. Every expected value is taken from the tables of
`spec/95_test_vectors.md` (the section is named at each group) or from the encoding table of
`spec/30_encoding.md`, never from the model. The last part has, for each obligation with hypotheses, a
witness that meets them. -/

open Sys2Proof Sys2Proof.Machine

namespace Sys2Proof.Tests

/-! ## Helpers -/

/-- A RUNNING state with these bytes at `pc`, everything else as after reset. -/
def runningAt (pc : Nat) (bytes : List Byte) : State := placeFetch (State.reset.setPc pc) bytes

/-- The state one step later. -/
def after (s : State) : State :=
  match step s with
  | .next t => t
  | .fault _ => s
  | .refused _ => s

/-- The step took a fault with this cause and info, and nothing but RS and FR changed. -/
def faults (s : State) (cause : Cause) (info : FaultInfo) : Bool :=
  match (after s).fr with
  | some f =>
    decide (f.cause = cause) && decide (f.info = info) && decide (f.addr = s.pc) &&
      decide ({ after s with rs := s.rs, fr := s.fr } = s)
  | none => false

/-! ## Well-formedness: an ill-formed term for each check (`30_encoding.md` R82, R87) -/

theorem test_wf_operand_a_8 : (Instr.ldi 8 1).wellFormed = false := by decide
theorem test_wf_operand_a_255 : (Instr.jmp 255).wellFormed = false := by decide
theorem test_wf_operand_b_8 : (Instr.cmp 7 8).wellFormed = false := by decide
theorem test_wf_both_bad : (Instr.add 9 10).wellFormed = false := by decide
theorem test_wf_immediate_is_free : (Instr.ldi 7 255).wellFormed = true := by decide
theorem test_wf_no_operands : Instr.ret.wellFormed = true := by decide

/-! ## Decoding: the bits of each opcode from `30_encoding.md` R84, the words of `95_test_vectors.md` 2.1 -/

theorem test_decode_hlt : decode Config.engine [0b00000001] = .ok (.hlt, []) := by decide
theorem test_decode_ldi :
    decode Config.engine [0b10000010, 0b00000011, 0b00001111] = .ok (.ldi 3 15, []) := by decide
theorem test_decode_prn : decode Config.engine [0b01000111, 0b00000100] = .ok (.prn 4, []) := by decide
theorem test_decode_add :
    decode Config.engine [0b10100000, 0b00000000, 0b00000001] = .ok (.add 0 1, []) := by decide
theorem test_decode_mul :
    decode Config.engine [0b10100010, 0b00000000, 0b00000001] = .ok (.mul 0 1, []) := by decide
theorem test_decode_mod :
    decode Config.engine [0b10100100, 0b00000010, 0b00000011] = .ok (.mod 2 3, []) := by decide
theorem test_decode_and :
    decode Config.engine [0b10101000, 0b00000000, 0b00000001] = .ok (.and 0 1, []) := by decide
theorem test_decode_or :
    decode Config.engine [0b10101010, 0b00000000, 0b00000001] = .ok (.or 0 1, []) := by decide
theorem test_decode_xor :
    decode Config.engine [0b10101011, 0b00000000, 0b00000001] = .ok (.xor 0 1, []) := by decide
theorem test_decode_shl :
    decode Config.engine [0b10101100, 0b00000000, 0b00000001] = .ok (.shl 0 1, []) := by decide
theorem test_decode_shr :
    decode Config.engine [0b10101101, 0b00000000, 0b00000001] = .ok (.shr 0 1, []) := by decide
theorem test_decode_not : decode Config.engine [0b01101001, 0b00000100] = .ok (.not 4, []) := by decide
theorem test_decode_push : decode Config.engine [0b01000101, 0b00000010] = .ok (.push 2, []) := by decide
theorem test_decode_pop : decode Config.engine [0b01000110, 0b00000011] = .ok (.pop 3, []) := by decide
theorem test_decode_call : decode Config.engine [0b01010000, 0b00000001] = .ok (.call 1, []) := by decide
theorem test_decode_ret : decode Config.engine [0b00010001] = .ok (.ret, []) := by decide
theorem test_decode_cmp :
    decode Config.engine [0b10100111, 0b00000000, 0b00000010] = .ok (.cmp 0 2, []) := by decide
theorem test_decode_jmp : decode Config.engine [0b01010100, 0b00000011] = .ok (.jmp 3, []) := by decide
theorem test_decode_jeq : decode Config.engine [0b01010101, 0b00000011] = .ok (.jeq 3, []) := by decide
theorem test_decode_jne : decode Config.engine [0b01010110, 0b00000011] = .ok (.jne 3, []) := by decide

/-- Unregistered bytes, 0xA1 among them, which only fits the LS-8 pattern (R85, R86). -/
theorem test_decode_unknown :
    decode Config.engine [0x00] = .error (.unknownOpcode 0x00) ∧
    decode Config.engine [0xA1, 0x00, 0x01] = .error (.unknownOpcode 0xA1) ∧
    decode Config.engine [0x65, 0x00] = .error (.unknownOpcode 0x65) ∧
    decode Config.engine [0xFF] = .error (.unknownOpcode 0xFF) := by decide

/-- A register index of 8 decodes (2.1, last row). -/
theorem test_decode_bad_index : decode Config.engine [0x82, 0x08, 0x01] = .ok (.ldi 8 1, []) := by decide

/-- The numbering of `spec/opcode_table.json`: the first byte is the least significant. -/
theorem test_table_word_ldi : decodeTableWord 24 0x0F0382 = some (.ldi 3 15) := by decide
theorem test_table_word_prn : decodeTableWord 16 0x0447 = some (.prn 4) := by decide
theorem test_table_word_opcode_only : decodeTableWord 8 0xA0 = some (.add 0 0) := by decide
theorem test_table_word_unknown : decodeTableWord 8 0x00 = none := by decide

/-! ## Reset, and the word placed for the next step (`10_state.md` R36; log 6) -/

theorem test_reset_sp : State.reset.getReg 7 = 0xF4 ∧ State.reset.getReg 6 = 0 := by decide
theorem test_fetch_word_runs :
    step (State.reset.withFetchWord 24 0x080082) =
      exec (.ldi 0 8) (State.reset.withFetchWord 24 0x080082) := rfl

/-! ## One step: fetch and HLT (2.2) -/

theorem test_hlt : (after (runningAt 11 [0x01])).rs = .haltedOk ∧ (after (runningAt 11 [0x01])).pc = 12 := by
  decide
theorem test_hlt_at_253 : (after (runningAt 253 [0x01])).rs = .haltedOk := by decide
theorem test_prefetch_at_254 : faults (runningAt 254 [0x01]) .addressError (.mem 256) = true := by decide
theorem test_prefetch_at_255 : faults (runningAt 255 [0x01]) .addressError (.mem 256) = true := by decide
theorem test_fetch_at_256 : faults (runningAt 256 []) .addressError (.mem 256) = true := by decide

/-- An unknown opcode at 255: the trace's second and third bytes are absent. -/
theorem test_unknown_at_255 :
    faults (runningAt 255 []) .unknownOpcode (.opcode 0x00) = true ∧
      ((after (runningAt 255 [])).fr.bind fun f => f.trace.map fun r => (r.m0, r.m1, r.m2)) =
        some (0x00, none, none) := by decide

/-- Scenario S2: the trace is (00, FF, 00, 00, 00, 00, 00, 00, 00, 00, 00, F4). -/
theorem test_unknown_trace :
    ((after (runningAt 0 [0xFF])).fr.bind FaultRecord.trace) =
      some { pc := 0x00, m0 := 0xFF, m1 := some 0x00, m2 := some 0x00, regs := #v[0, 0, 0, 0, 0, 0, 0, 0xF4] } := by
  decide

/-! ## LDI, PRN (2.3) -/

theorem test_ldi_last_address :
    (after (runningAt 253 [0x82, 0x00, 0x07])).getReg 0 = 7 ∧
      (after (runningAt 253 [0x82, 0x00, 0x07])).pc = 256 := by decide
theorem test_ldi_bad_index : faults (runningAt 0 [0x82, 0xFF, 0x01]) .addressError (.reg 255) = true := by
  decide
theorem test_prn_sp :
    (after (runningAt 9 [0x47, 0x07])).out = [244] ∧ (after (runningAt 9 [0x47, 0x07])).pc = 11 := by decide
theorem test_prn_bad_index : faults (runningAt 9 [0x47, 0x09]) .addressError (.reg 9) = true := by decide

/-! ## ALU (2.4) -/

/-- x[0] and x[1] as given, and a two-register instruction on them. -/
def alu (opcode va vb : Byte) : State :=
  ((runningAt 0 [opcode, 0x00, 0x01]).setReg 0 va).setReg 1 vb

/-- x[0] as given, and a two-register instruction with R0 twice. -/
def aluSame (opcode va : Byte) : State := (runningAt 0 [opcode, 0x00, 0x00]).setReg 0 va

theorem test_add_wraps : (after (alu 0xA0 200 100)).getReg 0 = 44 := by decide
theorem test_add_same : (after (aluSame 0xA0 0x80)).getReg 0 = 0 := by decide
theorem test_mul_low_byte : (after (alu 0xA2 255 255)).getReg 0 = 1 := by decide
theorem test_mul_same : (after (aluSame 0xA2 15)).getReg 0 = 225 := by decide
theorem test_mod : (after (alu 0xA4 17 5)).getReg 0 = 2 := by decide
theorem test_mod_by_zero : faults (alu 0xA4 9 0) .divisionByZero (.divisor 1) = true := by decide
theorem test_and : (after (alu 0xA8 0xCC 0xAA)).getReg 0 = 0x88 := by decide
theorem test_or : (after (alu 0xAA 0xCC 0xAA)).getReg 0 = 0xEE := by decide
theorem test_xor : (after (alu 0xAB 0xCC 0xAA)).getReg 0 = 0x66 := by decide
theorem test_xor_same : (after (aluSame 0xAB 0x5A)).getReg 0 = 0 := by decide
theorem test_shl : (after (alu 0xAC 0x81 1)).getReg 0 = 0x02 := by decide
theorem test_shl_count_not_masked : (after (alu 0xAC 0x01 8)).getReg 0 = 0 := by decide
theorem test_shr_logical : (after (alu 0xAD 0x81 1)).getReg 0 = 0x40 := by decide
theorem test_shr_long_count : (after (alu 0xAD 0xFF 200)).getReg 0 = 0 := by decide
theorem test_not : (after ((runningAt 0 [0x69, 0x04, 0xC8]).setReg 4 0x5A)).getReg 4 = 0xA5 := by decide
theorem test_not_bad_index : faults (runningAt 0 [0x69, 0xC8]) .addressError (.reg 200) = true := by decide
theorem test_cmp_unsigned : (after (alu 0xA7 0x80 0x7F)).fl = .greater := by decide
theorem test_cmp_discards_old : (after ((alu 0xA7 1 2).setFl .equal)).fl = .less := by decide

/-- Operand A is checked first, and before the divisor. -/
theorem test_add_a_first : faults (runningAt 0 [0xA0, 0x09, 0x0A]) .addressError (.reg 9) = true := by decide
theorem test_mod_index_first : faults (runningAt 0 [0xA4, 0x09, 0x00]) .addressError (.reg 9) = true := by
  decide

/-! ## Stack (2.5) -/

theorem test_push_sp :
    (after (runningAt 0 [0x45, 0x07])).getReg 7 = 0xF3 ∧
      (after (runningAt 0 [0x45, 0x07])).peek 0xF3 = 0xF3 := by decide
theorem test_push_sp_zero :
    faults ((runningAt 0 [0x45, 0x02]).setReg 7 0x00) .addressError (.mem (-1)) = true := by decide
theorem test_pop :
    (after (((runningAt 0 [0x46, 0x03]).setReg 7 0xF3).poke 0xF3 5)).getReg 3 = 5 ∧
      (after (((runningAt 0 [0x46, 0x03]).setReg 7 0xF3).poke 0xF3 5)).getReg 7 = 0xF4 := by decide
theorem test_pop_sp :
    (after (((runningAt 0 [0x46, 0x07]).setReg 7 0xFF).poke 0xFF 0x10)).getReg 7 = 0x11 := by decide

/-! ## Control transfer (2.6) -/

theorem test_call_largest_return :
    (after (runningAt 253 [0x50, 0x01])).peek 0xF3 = 255 ∧ (after (runningAt 253 [0x50, 0x01])).pc = 0 := by
  decide
theorem test_call_sp :
    (after (runningAt 6 [0x50, 0x07])).pc = 0xF3 ∧ (after (runningAt 6 [0x50, 0x07])).peek 0xF3 = 8 := by
  decide
theorem test_ret :
    (after (((runningAt 0 [0x11]).setReg 7 0xF3).poke 0xF3 8)).pc = 8 ∧
      (after (((runningAt 0 [0x11]).setReg 7 0xF3).poke 0xF3 8)).getReg 7 = 0xF4 := by decide
theorem test_ret_sp_255 : faults ((runningAt 0 [0x11]).setReg 7 0xFF) .addressError (.mem 256) = true := by
  decide
theorem test_jmp : (after ((runningAt 0 [0x54, 0x03]).setReg 3 15)).pc = 15 := by decide
theorem test_jmp_bad_index : faults (runningAt 0 [0x54, 0x08]) .addressError (.reg 8) = true := by decide
theorem test_jeq_taken : (after (((runningAt 24 [0x55, 0x03]).setReg 3 40).setFl .equal)).pc = 40 := by decide
theorem test_jeq_not_taken_checks : faults (runningAt 0 [0x55, 0x09]) .addressError (.reg 9) = true := by
  decide
theorem test_jne_none : (after ((runningAt 24 [0x56, 0x03]).setReg 3 15)).pc = 15 := by decide
theorem test_jne_equal : (after (((runningAt 24 [0x56, 0x03]).setReg 3 15).setFl .equal)).pc = 26 := by decide

/-! ## The host -/

theorem test_load_outside_idle : hostLoad [0x01] (runningAt 0 []) = .refused .loadOutsideIdle := rfl
theorem test_start : hostStart State.reset = .next (State.reset.setRs .running) := rfl
theorem test_start_outside_idle : hostStart (runningAt 0 []) = .refused .startOutsideIdle := rfl
theorem test_output_line : ((runningAt 0 []).emit 72).outputLines = ["72"] := by decide

/-! ## Witnesses: states and operands that meet the hypotheses of the obligations -/

/-- The operand hypotheses of a one-register instruction: indices at both ends of both ranges. -/
def OneOperandWitness : Prop :=
  7 < (8 : Byte).toNat ∧ 7 < (255 : Byte).toNat ∧ Names 0 0 ∧ Names 7 7

/-- The operand hypotheses of a two-register instruction. -/
def TwoOperandWitness : Prop :=
  OneOperandWitness ∧ ((7 : Byte).toNat ≤ 7 ∧ 7 < (8 : Byte).toNat)

theorem oneOperand : OneOperandWitness := ⟨by decide, by decide, rfl, rfl⟩
theorem twoOperand : TwoOperandWitness := ⟨oneOperand, by decide, by decide⟩

/-- A state after reset with another stack pointer. -/
def withSp (v : Byte) : State := State.reset.setReg 7 v

theorem witness_LdiLoadsItsImmediate : OneOperandWitness := oneOperand
theorem witness_PrnAppendsOneValueToOut : OneOperandWitness := oneOperand
theorem witness_AddAndMulWrapModulo256 : TwoOperandWitness := twoOperand

/-- At reset R7 is a divisor that is not 0, and R0 is one that is. -/
theorem witness_ModWritesRemainderOrFaults :
    TwoOperandWitness ∧ (State.reset.getReg 7).toNat ≠ 0 ∧ (State.reset.getReg 0).toNat = 0 ∧
      ((withSp 1).getReg 7).toNat ≠ 0 := ⟨twoOperand, by decide, by decide, by decide⟩

theorem witness_AndOrXorCombineBitByBit : TwoOperandWitness ∧ 0 < 8 ∧ 7 < 8 := ⟨twoOperand, by decide, by decide⟩
theorem witness_NotInvertsEveryBit : OneOperandWitness ∧ 0 < 8 ∧ 7 < 8 := ⟨oneOperand, by decide, by decide⟩
theorem witness_ShiftsUseTheWholeCount :
    TwoOperandWitness ∧ 8 ≤ ((withSp 8).getReg 7).toNat ∧ 8 ≤ ((withSp 255).getReg 7).toNat :=
  ⟨twoOperand, by decide, by decide⟩
theorem witness_CmpSetsFlagsByUnsignedOrder : TwoOperandWitness := twoOperand
theorem witness_PushStoresBelowTheStackPointer :
    OneOperandWitness ∧ ((withSp 1).getReg 7).toNat ≠ 0 ∧ ((withSp 0).getReg 7).toNat = 0 :=
  ⟨oneOperand, by decide, by decide⟩
theorem witness_PopLoadsThenIncrements :
    OneOperandWitness ∧ (6 : RegIndex) ≠ 7 ∧ Names 6 6 ∧
    ((withSp 254).getReg 7).toNat ≠ 255 ∧ ((withSp 255).getReg 7).toNat = 255 ∧
    (((withSp 255).poke 255 254).peek 255).toNat ≠ 255 ∧ (((withSp 255).poke 255 255).peek 255).toNat = 255 :=
  ⟨oneOperand, by decide, rfl, by decide, by decide, by decide, by decide⟩
theorem witness_CallStoresTheReturnAddress :
    (State.reset.setPc 253).pc + 2 ≤ 255 ∧ OneOperandWitness ∧
    (((withSp 1).setPc 253).getReg 7).toNat ≠ 0 ∧ (((withSp 0).setPc 253).getReg 7).toNat = 0 :=
  ⟨by decide, oneOperand, by decide, by decide⟩
theorem witness_RetJumpsToTheStackTop :
    ((withSp 254).getReg 7).toNat ≠ 255 ∧ ((withSp 255).getReg 7).toNat = 255 := by decide
theorem witness_JmpGoesToTheRegister : OneOperandWitness := oneOperand
theorem witness_JeqAndJneTestEqualOnly :
    OneOperandWitness ∧ (State.reset.setFl .equal).fl = .equal ∧ State.reset.fl ≠ .equal ∧
    (State.reset.setFl .greater).fl ≠ .equal ∧ (State.reset.setFl .less).fl ≠ .equal :=
  ⟨oneOperand, by decide, by decide, by decide, by decide⟩

theorem witness_AluResultsAreUnsignedModulo256 :
    1 ≤ (1 : Byte).toNat ∧ 8 ≤ (8 : Byte).toNat ∧ (State.reset.getReg 0).toNat = 0 := by decide
theorem witness_SameRegisterTwiceIsReadBeforeWritten :
    Names 7 7 ∧ (State.reset.getReg 7).toNat ≠ 0 ∧ Names 0 0 ∧ (State.reset.getReg 0).toNat = 0 :=
  ⟨rfl, by decide, rfl, by decide⟩

/-- The second operand is the first bad one, and the first is. -/
theorem witness_FirstBadRegisterOperandFaults :
    ((Instr.cmp 7 8).regOperands = [7] ++ 8 :: [] ∧ (∀ j ∈ [(7 : Byte)], j.toNat ≤ 7) ∧ 7 < (8 : Byte).toNat) ∧
    (Instr.ldi 255 0).regOperands = [] ++ 255 :: [] ∧ 7 < (255 : Byte).toNat := by decide

theorem witness_InstructionFaultsExactlyWhenTheSpecSays :
    (runningAt 0 []).rs = .running ∧
    ((Instr.push 7).wellFormed = true ∧ OwnConditionHolds (.push 7) (runningAt 0 [])) ∧
    ¬ ((Instr.push 8).wellFormed = true ∧ OwnConditionHolds (.push 8) (runningAt 0 [])) :=
  ⟨by decide, ⟨by decide, show (runningAt 0 []).sp.toNat ≠ 0 by decide⟩, fun h => absurd h.1 (by decide)⟩

theorem witness_RegistersReadAndWrittenAsTabled :
    (∃ t, exec (.ldi 3 5) State.reset = .next t) ∧ ¬ WritesReg (.ldi 3 5) 0 ∧
    ¬ ReadsReg (.ldi 3 5) State.reset 7 ∧ ∃ u, exec (.ldi 3 5) (State.reset.setReg 7 1) = .next u :=
  ⟨⟨_, rfl⟩, show ¬ (3 : Byte).toNat = (0 : RegIndex).val by decide, id, ⟨_, rfl⟩⟩

/-- A store, at an address it does not store to, and a load, at one it does not load from. -/
theorem witness_MemoryReachedByStackInstructionsOnly :
    ((∃ t, exec (.push 2) State.reset = .next t) ∧ storeAddress (.push 2) State.reset ≠ some 0xF4) ∧
    (∃ t, exec (.pop 2) State.reset = .next t) ∧
    ((Instr.pop 2 = .ret ∨ ∃ k, Instr.pop 2 = .pop k) → 0xF3 ≠ State.reset.sp.toNat) ∧
    ∃ u, exec (.pop 2) (State.reset.poke 0xF3 1) = .next u :=
  ⟨⟨⟨_, rfl⟩, by decide⟩, ⟨_, rfl⟩, fun _ => by decide, ⟨_, rfl⟩⟩

theorem witness_FlagsWrittenByCmpReadByJumpsOnly :
    ((∃ t, exec (.ldi 3 5) State.reset = .next t) ∧ ∀ a b, Instr.ldi 3 5 ≠ .cmp a b) ∧
    (∃ t, exec (.cmp 0 7) State.reset = .next t ∧ t.rs ≠ .haltedFault) ∧
    (State.reset.setFl .less).fl ≠ .none ∧
    (Flags.greater = .equal ↔ State.reset.fl = .equal) ∧
    ∃ u, exec (.jeq 3) (State.reset.setFl .greater) = .next u :=
  ⟨⟨⟨_, rfl⟩, fun _ _ h => (by cases h)⟩, ⟨_, rfl, by decide⟩, by decide, by decide, ⟨_, rfl⟩⟩

theorem witness_OutGrowsByPrnOnly :
    (∃ t, exec (.prn 7) State.reset = .next t) ∧
    (∃ t, exec (.ldi 3 5) State.reset = .next t) ∧ (∀ a, Instr.ldi 3 5 ≠ .prn a) ∧
    ∃ u, exec (.prn 7) { State.reset with out := [1] } = .next u :=
  ⟨⟨_, rfl⟩, ⟨_, rfl⟩, fun _ h => (by cases h), ⟨_, rfl⟩⟩

theorem witness_PcAfterEachInstruction :
    (runningAt 0 []).rs = .running ∧
      ∃ t, exec (.call 7) (runningAt 0 []) = .next t ∧ t.rs ≠ .haltedFault := ⟨by decide, _, rfl, by decide⟩

theorem witness_PushThenPopRestores :
    Names 6 6 ∧ (6 : RegIndex) ≠ 7 ∧ ((withSp 1).getReg 7).toNat ≠ 0 := ⟨rfl, by decide, by decide⟩
theorem witness_PushThenPopOfTheStackPointerRestores : ((withSp 1).getReg 7).toNat ≠ 0 := by decide
theorem witness_CallThenRetResumesAfterTheCall :
    Names 7 7 ∧ ((withSp 1).setPc 253).pc + 2 ≤ 255 ∧ (((withSp 1).setPc 253).getReg 7).toNat ≠ 0 :=
  ⟨rfl, by decide, by decide⟩
theorem witness_CmpThenJumpTestsEquality : Names 0 0 ∧ Names 7 7 ∧ Names 3 3 := ⟨rfl, rfl, rfl⟩

theorem witness_EveryFaultIsPrecise :
    (runningAt 0 []).rs = .running ∧
      ∃ t, stepWith Config.engine (runningAt 0 []) = .next t ∧ t.rs = .haltedFault :=
  ⟨by decide, after (runningAt 0 []), rfl, by decide⟩

/-- An unregistered byte at 253, where the trace is whole, and at 254 and 255, where it is not. -/
theorem witness_UnknownOpcodeRecordsTheTrace :
    ∀ a ∈ [253, 254, 255], (runningAt a []).rs = .running ∧ (runningAt a []).pc ≤ 255 ∧
      ∀ m, Config.engine.opcodeMap m ≠ (runningAt a []).peek (runningAt a []).pc := by
  intro a ha
  simp only [List.mem_cons, List.not_mem_nil, or_false] at ha
  rcases ha with rfl | rfl | rfl <;>
    exact ⟨rfl, by decide, fun m => by cases m <;> decide⟩

theorem witness_UnsupportedOperationIsUnreachable :
    aluApply .hlt 0 1 State.reset = .error .unsupportedOperation ∧ (runningAt 0 []).rs = .running ∧
      ∃ t, stepWith Config.engine (runningAt 0 []) = .next t ∧ t.rs = .haltedFault ∧ ∃ f, t.fr = some f :=
  ⟨rfl, rfl, after (runningAt 0 []), rfl, by decide, Option.isSome_iff_exists.mp (by decide)⟩
theorem witness_AbortIsTerminalUntilReset : (State.reset.takeException .unsupportedOperation).rs = .haltedFault :=
  rfl
theorem witness_NoStepOutsideRunning :
    State.reset.rs ≠ .running ∧ (State.reset.setRs .haltedOk).rs ≠ .running ∧
      (State.reset.setRs .haltedFault).rs ≠ .running := by decide
theorem witness_RunningStepYieldsOneNextState : (runningAt 256 []).rs = .running := rfl

/-- `pc` past the memory; an unregistered byte at 255; HLT at 255, 254 and 253. -/
theorem witness_StepFetchesInOrder :
    Config.engine.OpcodeInjective ∧ (runningAt 256 []).rs = .running ∧ 255 < (runningAt 256 []).pc ∧
    ((runningAt 255 []).pc ≤ 255 ∧ ∀ m, Config.engine.opcodeMap m ≠ (runningAt 255 []).peek 255) ∧
    Config.engine.opcodeMap .hlt = (runningAt 255 [0x01]).peek 255 ∧
    Config.engine.opcodeMap .hlt = (runningAt 254 [0x01]).peek 254 ∧
    Config.engine.opcodeMap .hlt = (runningAt 253 [0x01]).peek 253 ∧ (runningAt 253 [0x01]).pc ≤ 253 :=
  ⟨engine_injective, rfl, by decide, ⟨by decide, fun m => by cases m <;> decide⟩, by decide, by decide,
    by decide, by decide⟩

theorem witness_StepRunsTheDecodedInstruction :
    (runningAt 253 [0x82, 0x00, 0x07]).rs = .running ∧ (runningAt 253 [0x82, 0x00, 0x07]).pc ≤ 253 ∧
      decode Config.engine (fetchedBytes (runningAt 253 [0x82, 0x00, 0x07])) = .ok (.ldi 0 7, []) := by
  decide

/-- A step that runs HLT, at the last address where one can, and a step that does not. -/
theorem witness_OnlyHltEndsTheRunWell :
    Config.engine.OpcodeInjective ∧
    ((runningAt 253 [0x01]).rs = .running ∧ ∃ t, stepWith Config.engine (runningAt 253 [0x01]) = .next t) ∧
    (runningAt 254 [0x01]).rs = .running ∧ ∃ t, stepWith Config.engine (runningAt 254 [0x01]) = .next t :=
  ⟨engine_injective, ⟨rfl, stepWith_next _ _⟩, rfl, stepWith_next _ _⟩

theorem witness_PcReaches256OnlyFrom253 :
    ((runningAt 253 [0x82, 0x00, 0x07]).rs = .running ∧ (runningAt 253 [0x82, 0x00, 0x07]).pc ≤ 255 ∧
      ∃ t, stepWith Config.engine (runningAt 253 [0x82, 0x00, 0x07]) = .next t ∧ t.pc = 256) ∧
    (runningAt 256 []).rs = .running ∧ 255 < (runningAt 256 []).pc :=
  ⟨⟨rfl, by decide, after (runningAt 253 [0x82, 0x00, 0x07]), rfl, by decide⟩, rfl, by decide⟩

/-- Program P4 of `95_test_vectors.md` before its PUSH, and the same at the last address the statement
admits. -/
theorem witness_PushedOperandByteIsFetched :
    ∀ p ∈ [9, 251],
      let s := (((runningAt p [0x45, 0x00, 0x47, 0x00]).setReg 0 1).setReg 1 7).setReg 7 (BitVec.ofNat 8 (p + 4))
      Config.engine.OpcodeInjective ∧ s.rs = .running ∧ s.pc ≤ 251 ∧
      s.peek s.pc = Config.engine.opcodeMap .push ∧ Names (s.peek (s.pc + 1)) 0 ∧
      s.peek (s.pc + 2) = Config.engine.opcodeMap .prn ∧ (s.getReg 7).toNat = s.pc + 4 ∧
      (0 : RegIndex) ≠ 7 ∧ Names (s.getReg 0) 1 ∧ (1 : RegIndex) ≠ 7 := by
  intro p hp
  simp only [List.mem_cons, List.not_mem_nil, or_false] at hp
  rcases hp with rfl | rfl <;>
    exact ⟨engine_injective, rfl, by decide, by decide, by unfold Names; decide, by decide, by decide,
      by decide, by unfold Names; decide, by decide⟩

/-- A RUNNING state that meets the invariant, at the last value of `pc`. -/
theorem witness_EveryStepKeepsTheInvariant :
    Inv (runningAt 256 []) ∧ ∃ t, stepWith Config.engine (runningAt 256 []) = .next t :=
  ⟨⟨by decide, by decide, by decide, fun f h => (by cases h), fun f h => (by cases h), fun f h => (by cases h)⟩,
    stepWith_next _ _⟩

theorem witness_EveryRunOfEveryImageKeepsTheInvariant : (List.replicate 256 (0x01 : Byte)).length ≤ 256 := by
  rw [List.length_replicate]

theorem witness_MemoryAccessIsChecked :
    ((0 : Int) ≤ 0 ∧ (0 : Int) ≤ 255) ∧ ((0 : Int) ≤ 255 ∧ (255 : Int) ≤ 255) ∧
      ((-1 : Int) < 0 ∨ (255 : Int) < -1) ∧ ((256 : Int) < 0 ∨ (255 : Int) < 256) := by decide

theorem witness_CanonicalMemoryIsDeterminedByItsReads :
    Memory.wf [(0, 1), (255, 2)] = true ∧
      ∀ a : Nat, a < 256 → Memory.read [(0, 1), (255, 2)] a = Memory.read [(0, 1), (255, 2)] a :=
  ⟨by decide, fun _ _ => rfl⟩

theorem witness_ResetLeavesTheSpecifiedState : (6 : RegIndex) ≠ 7 ∧ 0 < 256 ∧ 255 < 256 := by decide

/-- A full image, its last byte; one byte too many; and an engine that runs. -/
theorem witness_LoadWritesTheImageAndNothingElse :
    State.reset.rs = .idle ∧ (List.replicate 256 (0x01 : Byte)).length ≤ 256 ∧
    255 < (List.replicate 256 (0x01 : Byte)).length ∧ ([] : List Byte).length ≤ 0 ∧
    256 < (List.replicate 257 (0x01 : Byte)).length ∧ (runningAt 0 []).rs ≠ .idle := by
  refine ⟨rfl, ?_, ?_, by decide, ?_, by decide⟩ <;> rw [List.length_replicate] <;> omega

/-- A full image, its last byte; and a one-byte image, the last cell above it. -/
theorem witness_LaunchStartsTheImageFromReset :
    (List.replicate 256 (0x01 : Byte)).length ≤ 256 ∧ 255 < (List.replicate 256 (0x01 : Byte)).length ∧
    [(0x01 : Byte)].length ≤ 256 ∧ [(0x01 : Byte)].length ≤ 255 ∧ 255 < 256 ∧ (6 : RegIndex) ≠ 7 := by
  refine ⟨?_, ?_, by decide, by decide, by decide, by decide⟩ <;> rw [List.length_replicate]; omega

theorem witness_ExitStatusIsAFunctionOfTheRunState :
    (State.reset.setRs .haltedOk).rs = .haltedOk ∧
      (State.reset.takeException (.addressMem 256)).rs = .haltedFault := ⟨rfl, rfl⟩
theorem witness_DecodeReadsEveryEncodingBack : Config.engine.OpcodeInjective := engine_injective
theorem witness_EncodeReturnsTheDecodedBytes :
    decode Config.engine [0x47, 0x04, 0x01] = .ok (.prn 4, [0x01]) := by decide

/-- A byte that is no opcode, and one that is. -/
theorem witness_UnregisteredBytesAreUnknownOpcodes :
    (∀ m, Config.engine.opcodeMap m ≠ 0x00) ∧ decode Config.engine [0x00] = .error (.unknownOpcode 0x00) ∧
      Config.engine.opcodeMap .jne = 0x56 := ⟨fun m => by cases m <;> decide, by decide, by decide⟩
theorem witness_UnusedOperandBytesAreIgnored :
    Mnemonic.hlt.format = .op0 ∧ Mnemonic.ret.format = .op0 ∧ Mnemonic.jne.format = .op1R := by decide
theorem witness_FlagsByteLayout : (3 ≤ 3 ∧ 3 < 8) ∧ 3 ≤ 7 ∧ 7 < 8 := by decide

end Sys2Proof.Tests
end

section
/-! PROOFS. Noninterference of the instructions, once for every way in which two states can differ: a
relation that the operations keep (`KeptByOps`) holds of the two answers of an instruction when it holds of
the two states in which it began and these agree on what the instruction reads (`SameInputs`). The
statements of `10_state.md` R23, R27 and R34 are this law for "the same but for one register", "the same but
for FL" and "the same but for OUT", beside the frames read off `exec_ends`. -/

namespace Sys2Proof.Machine

/-! ## Relations that the operations keep -/

/-- A relation between two states that holds again after the same operation, with the same values, on
both. The abort is among the operations where it records no trace, which would show the registers and the
memory (`60_exceptions.md` R207). -/
structure KeptByOps (R : State → State → Prop) : Prop where
  pc_eq : ∀ {s s'}, R s s' → s'.pc = s.pc
  setReg : ∀ {s s'} (d v), R s s' → R (s.setReg d v) (s'.setReg d v)
  setPc : ∀ {s s'} (n), R s s' → R (s.setPc n) (s'.setPc n)
  setFl : ∀ {s s'} (f), R s s' → R (s.setFl f) (s'.setFl f)
  setRs : ∀ {s s'} (r), R s s' → R (s.setRs r) (s'.setRs r)
  emit : ∀ {s s'} (v), R s s' → R (s.emit v) (s'.emit v)
  poke : ∀ {s s'} (a v), R s s' → R (s.poke a v) (s'.poke a v)
  abort : ∀ {s s'} (e : Exc), e.cause ≠ .unknownOpcode → R s s' →
    R (s.takeException e) (s'.takeException e)

/-- The two states agree on everything that the instruction reads, `pc` apart: its registers, EQUAL for
JEQ and JNE, and the byte on the stack for POP and RET (`10_state.md` R23, R27; `20_memory.md` R52). -/
structure SameInputs (i : Instr) (s s' : State) : Prop where
  regs : ∀ q, ReadsReg i s q → s'.getReg q = s.getReg q
  flag : (∃ a, i = .jeq a ∨ i = .jne a) → (s'.fl = .equal ↔ s.fl = .equal)
  load : (i = .ret ∨ ∃ a, i = .pop a) → s'.peek s.sp.toNat = s.peek s.sp.toNat

/-- Two computations end alike: both well, in related states, or both with the same exception, which
records no trace. -/
inductive EndAlike (R : State → State → Prop) : Except Exc State → Except Exc State → Prop where
  | ok {t u} : R t u → EndAlike R (.ok t) (.ok u)
  | error (e) : e.cause ≠ .unknownOpcode → EndAlike R (.error e) (.error e)

section Related

variable {R : State → State → Prop} {s s' t u : State} {a b : Byte}

theorem KeptByOps.advance (hR : KeptByOps R) (n : Nat) (h : R s s') : R (s.advance n) (s'.advance n) := by
  rw [State.advance, State.advance, hR.pc_eq h]
  exact hR.setPc _ h

/-- Computations that end alike settle in related states. -/
theorem EndAlike.settle_related (hR : KeptByOps R) (hs : R s s') {x x' : Except Exc State}
    (hx : EndAlike R x x') (ht : settle s x = .next t) (hu : settle s' x' = .next u) : R t u := by
  cases hx with
  | ok h =>
    cases ht
    cases hu
    exact h
  | error e he =>
    cases ht
    cases hu
    exact hR.abort e he hs

/-- The check of a register operand is the same in every state. -/
theorem EndAlike.reg_bind {f g : RegIndex → Except Exc State}
    (h : ∀ d, Names a d → EndAlike R (f d) (g d)) : EndAlike R (reg a >>= f) (reg a >>= g) := by
  rcases reg_cases a with ⟨d, ha, hd⟩ | ⟨-, hd⟩ <;> rw [hd]
  · exact h d ha
  · exact .error _ nofun

theorem EndAlike.decrementSp_bind (hsp : s'.sp = s.sp) {f g : State → Except Exc State}
    (h : ∀ v, EndAlike R (f (s.setSp v)) (g (s'.setSp v))) :
    EndAlike R (decrementSp s >>= f) (decrementSp s' >>= g) := by
  rw [decrementSp, decrementSp, hsp]
  split
  · exact .error _ nofun
  · exact h _

theorem EndAlike.incrementSp_bind (hsp : s'.sp = s.sp) {f g : State → Except Exc State}
    (h : ∀ v, EndAlike R (f (s.setSp v)) (g (s'.setSp v))) :
    EndAlike R (incrementSp s >>= f) (incrementSp s' >>= g) := by
  rw [incrementSp, incrementSp, hsp]
  split
  · exact .error _ nofun
  · exact h _

/-- `apply` uses the two register values and nothing else of the state (`42_alu.md` R140). -/
theorem EndAlike.of_aluApply (hR : KeptByOps R) (operation : Mnemonic) {d r : RegIndex} (hs : R s s')
    (hd : s'.getReg d = s.getReg d) (hr : s'.getReg r = s.getReg r) :
    EndAlike R (aluApply operation d r s) (aluApply operation d r s') := by
  cases operation <;> simp only [aluApply, hd, hr]
  case mod =>
    split
    · exact .error _ nofun
    · exact .ok (hR.setReg _ _ hs)
  case cmp => exact .ok (hR.setFl _ (hR.setFl _ hs))
  case add | mul | and | or | xor | shl | shr | not => exact .ok (hR.setReg _ _ hs)
  all_goals exact .error _ nofun

/-- Computations that end alike still do with the same advance of `pc` after them. -/
theorem EndAlike.bind_advance (hR : KeptByOps R) (n : Nat) {x x' : Except Exc State}
    (h : EndAlike R x x') :
    EndAlike R (x >>= fun t => .ok (t.advance n)) (x' >>= fun t => .ok (t.advance n)) := by
  cases h with
  | ok h => exact .ok (hR.advance n h)
  | error e he => exact .error e he

/-- The two-register handler, which reads the registers that its operands name. -/
theorem aluTwo_related (hR : KeptByOps R) (operation : Mnemonic) (hs : R s s')
    (hreads : ∀ q, Names a q ∨ Names b q → s'.getReg q = s.getReg q)
    (ht : aluTwo operation a b s = .next t) (hu : aluTwo operation a b s' = .next u) : R t u := by
  refine EndAlike.settle_related hR hs (.reg_bind fun d ha => .reg_bind fun r hb => ?_) ht hu
  exact .bind_advance hR _ (.of_aluApply hR operation hs (hreads d (.inl ha)) (hreads r (.inr hb)))

/-- The conditional jump reads its register only when it is taken. -/
theorem jumpIf_related (hR : KeptByOps R) {taken : Bool} (hs : R s s')
    (hreads : ∀ q, Names a q → taken = true → s'.getReg q = s.getReg q)
    (ht : jumpIf taken a s = .next t) (hu : jumpIf taken a s' = .next u) : R t u := by
  refine EndAlike.settle_related hR hs (.reg_bind fun d ha => .ok ?_) ht hu
  cases taken with
  | true =>
    rw [hreads d ha rfl]
    exact hR.setPc _ hs
  | false => exact hR.advance 2 hs

theorem isEqual_congr {f g : Flags} (h : f = .equal ↔ g = .equal) : f.isEqual = g.isEqual := by
  rw [Bool.eq_iff_iff, isEqual_iff, isEqual_iff, h]

theorem getReg_setSp_congr {q : RegIndex} (v : Byte) (h : s'.getReg q = s.getReg q) :
    (s'.setSp v).getReg q = (s.setSp v).getReg q := by
  rw [State.getReg_setSp, State.getReg_setSp, h]

theorem execPush_related (hR : KeptByOps R) (hs : R s s') (hin : SameInputs (.push a) s s')
    (ht : execPush a s = .next t) (hu : execPush a s' = .next u) : R t u := by
  refine EndAlike.settle_related hR hs
    (.reg_bind fun d ha => .decrementSp_bind (hin.regs 7 (.inl rfl)) fun v => ?_) ht hu
  simp only [memWrite_byte, State.setSp_sp, except_ok_bind, getReg_setSp_congr v (hin.regs d (.inr ha))]
  exact .ok (hR.advance 2 (hR.poke _ _ (hR.setReg _ v hs)))

theorem execPop_related (hR : KeptByOps R) (hs : R s s') (hin : SameInputs (.pop a) s s')
    (ht : execPop a s = .next t) (hu : execPop a s' = .next u) : R t u := by
  have hsp : s'.sp = s.sp := hin.regs 7 rfl
  refine EndAlike.settle_related hR hs (.reg_bind fun d _ => ?_) ht hu
  simp only [memRead_byte, except_ok_bind, hsp, hin.load (.inr ⟨a, rfl⟩)]
  refine .incrementSp_bind ?_ fun v => .ok (hR.advance 2 (hR.setReg _ v (hR.setReg d _ hs)))
  rw [State.sp_setReg, State.sp_setReg, hsp]

theorem execCall_related (hR : KeptByOps R) (hs : R s s') (hin : SameInputs (.call a) s s')
    (ht : execCall a s = .next t) (hu : execCall a s' = .next u) : R t u := by
  refine EndAlike.settle_related hR hs
    (.reg_bind fun d ha => .decrementSp_bind (hin.regs 7 (.inl rfl)) fun v => ?_) ht hu
  simp only [memWrite_byte, State.setSp_sp, State.setSp_pc, State.poke_getReg, except_ok_bind, hR.pc_eq hs,
    getReg_setSp_congr v (hin.regs d (.inr ha))]
  exact .ok (hR.setPc _ (hR.poke _ _ (hR.setReg _ v hs)))

theorem execRet_related (hR : KeptByOps R) (hs : R s s') (hin : SameInputs .ret s s')
    (ht : execRet s = .next t) (hu : execRet s' = .next u) : R t u := by
  have hsp : s'.sp = s.sp := hin.regs 7 rfl
  refine EndAlike.settle_related hR hs ?_ ht hu
  simp only [memRead_byte, except_ok_bind, hsp, hin.load (.inl rfl)]
  refine .incrementSp_bind ?_ fun v => .ok (hR.setReg _ v (hR.setPc _ hs))
  exact hsp

/-- NONINTERFERENCE: from related states that agree on what it reads, an instruction answers related
states. -/
theorem exec_related (hR : KeptByOps R) {i : Instr} (hs : R s s') (hin : SameInputs i s s')
    (ht : exec i s = .next t) (hu : exec i s' = .next u) : R t u := by
  cases i with
  | hlt => exact EndAlike.settle_related hR hs (.ok (hR.advance 1 (hR.setRs _ hs))) ht hu
  | ldi a imm =>
    exact EndAlike.settle_related hR hs
      (.reg_bind fun d _ => .ok (hR.advance 3 (hR.setReg d _ hs))) ht hu
  | prn a =>
    refine EndAlike.settle_related hR hs (.reg_bind fun d ha => .ok ?_) ht hu
    rw [hin.regs d ha]
    exact hR.advance 2 (hR.emit _ hs)
  | add a b => exact aluTwo_related hR .add hs hin.regs ht hu
  | mul a b => exact aluTwo_related hR .mul hs hin.regs ht hu
  | mod a b => exact aluTwo_related hR .mod hs hin.regs ht hu
  | and a b => exact aluTwo_related hR .and hs hin.regs ht hu
  | or a b => exact aluTwo_related hR .or hs hin.regs ht hu
  | xor a b => exact aluTwo_related hR .xor hs hin.regs ht hu
  | shl a b => exact aluTwo_related hR .shl hs hin.regs ht hu
  | shr a b => exact aluTwo_related hR .shr hs hin.regs ht hu
  | not a =>
    refine EndAlike.settle_related hR hs (.reg_bind fun d ha => ?_) ht hu
    exact .bind_advance hR _ (.of_aluApply hR .not hs (hin.regs d ha) (hin.regs d ha))
  | push a => exact execPush_related hR hs hin ht hu
  | pop a => exact execPop_related hR hs hin ht hu
  | call a => exact execCall_related hR hs hin ht hu
  | ret => exact execRet_related hR hs hin ht hu
  | cmp a b => exact aluTwo_related hR .cmp hs hin.regs ht hu
  | jmp a =>
    refine EndAlike.settle_related hR hs (.reg_bind fun d ha => .ok ?_) ht hu
    rw [hin.regs d ha]
    exact hR.setPc _ hs
  | jeq a =>
    have hflag : s'.fl.isEqual = s.fl.isEqual := isEqual_congr (hin.flag ⟨a, .inl rfl⟩)
    simp only [exec, execJeq, hflag] at ht hu
    exact jumpIf_related hR hs (fun q ha h => hin.regs q ⟨ha, (isEqual_iff _).mp h⟩) ht hu
  | jne a =>
    have hflag : s'.fl.isEqual = s.fl.isEqual := isEqual_congr (hin.flag ⟨a, .inr rfl⟩)
    simp only [exec, execJne, hflag] at ht hu
    refine jumpIf_related hR hs (fun q ha h => hin.regs q ⟨ha, fun he => ?_⟩) ht hu
    simp [(isEqual_iff _).mpr he] at h

end Related

/-! ## Registers (`10_state.md` R23) -/

/-- `t` is `s` but for register `q`. -/
def SameButReg (q : RegIndex) (s t : State) : Prop :=
  KeepsRegsBut s t q ∧ t.pc = s.pc ∧ t.fl = s.fl ∧ t.mem = s.mem ∧ t.out = s.out ∧ KeepsRun s t

theorem sameButReg_setReg (s : State) (q : RegIndex) (v : Byte) : SameButReg q s (s.setReg q v) :=
  ⟨fun _ hp => State.getReg_setReg_ne s v hp, rfl, rfl, rfl, rfl, rfl, rfl⟩

theorem keptByOps_sameButReg (q : RegIndex) : KeptByOps (SameButReg q) where
  pc_eq := fun ⟨_, hpc, _⟩ => hpc
  setReg d v := fun ⟨hregs, hrest⟩ =>
    ⟨fun p hp => by rw [State.getReg_setReg, State.getReg_setReg, hregs p hp], hrest⟩
  setPc _ := fun ⟨hregs, _, hrest⟩ => ⟨hregs, rfl, hrest⟩
  setFl _ := fun ⟨hregs, hpc, _, hrest⟩ => ⟨hregs, hpc, rfl, hrest⟩
  setRs _ := fun ⟨hregs, hpc, hfl, hmem, hout, _, hfr⟩ => ⟨hregs, hpc, hfl, hmem, hout, rfl, hfr⟩
  emit v := fun ⟨hregs, hpc, hfl, hmem, hout, hrun⟩ =>
    ⟨hregs, hpc, hfl, hmem, congrArg (· ++ [v]) hout, hrun⟩
  poke a v := fun ⟨hregs, hpc, hfl, hmem, hrest⟩ =>
    ⟨hregs, hpc, hfl, congrArg (Memory.write · a v) hmem, hrest⟩
  abort e he := fun ⟨hregs, hpc, hfl, hmem, hout, _⟩ =>
    ⟨hregs, hpc, hfl, hmem, hout, rfl, by simp [he, hpc]⟩

/-- An instruction that completed changed no register outside the table's 'writes' column. -/
theorem Effect.getReg_of_not_writes {s t : State} {i : Instr} {q : RegIndex} (h : Effect s i t)
    (hq : ¬ WritesReg i q) : t.getReg q = s.getReg q := by
  have hne : ∀ {a d}, Names a d → ¬ Names a q → q ≠ d := fun hd hn hqd => hn (hqd ▸ hd)
  cases h with
  | hlt | prn | cmp | jmp => rfl
  | jeq | jne => split <;> rfl
  | ldi ha | not ha => exact State.getReg_setReg_ne s _ (hne ha hq)
  | add ha | mul ha | mod ha | and ha | or ha | xor ha | shl ha | shr ha =>
    exact State.getReg_setReg_ne s _ (hne ha hq)
  | push | call | ret => exact State.getReg_setReg_ne _ _ hq
  | pop ha =>
    obtain ⟨hqa, hqsp⟩ := not_or.mp hq
    exact (State.getReg_setReg_ne _ _ hqsp).trans (State.getReg_setReg_ne s _ (hne ha hqa))

theorem exec_getReg_of_not_writes {s t : State} {i : Instr} {q : RegIndex} (h : exec i s = .next t)
    (hq : ¬ WritesReg i q) : t.getReg q = s.getReg q := by
  rcases exec_ends s h with heff | ⟨e, -, rfl⟩
  · exact heff.getReg_of_not_writes hq
  · rfl

/-- Settles O20: the frame by the inversion of `exec`, the rest by noninterference for states that are the
same but for one register. -/
theorem registersReadAndWrittenAsTabled : Obligations.RegistersReadAndWrittenAsTabled := by
  intro i s t ht
  refine ⟨fun q hq => exec_getReg_of_not_writes ht hq, fun q v u hq hu => ?_⟩
  have hin : SameInputs i s (s.setReg q v) :=
    { regs := fun p hp => State.getReg_setReg_ne s v fun hpq => hq (hpq ▸ hp)
      flag := fun _ => Iff.rfl
      load := fun _ => rfl }
  exact exec_related (keptByOps_sameButReg q) (sameButReg_setReg s q v) hin ht hu

/-! ## The flags (`10_state.md` R27) -/

/-- `t` is `s` but for FL. -/
def SameButFl (s t : State) : Prop := t.setFl .none = s.setFl .none

theorem sameButFl_setFl (s : State) (f : Flags) : SameButFl s (s.setFl f) := rfl

theorem keptByOps_sameButFl : KeptByOps SameButFl where
  pc_eq {s s'} h := show (s'.setFl .none).pc = (s.setFl .none).pc from congrArg State.pc h
  setReg d v h := congrArg (State.setReg · d v) h
  setPc n h := congrArg (State.setPc · n) h
  setFl _ h := h
  setRs r h := congrArg (State.setRs · r) h
  emit v h := congrArg (State.emit · v) h
  poke a v h := congrArg (State.poke · a v) h
  abort e _ h := congrArg (State.takeException · e) h

theorem compareFlags_ne_none (va vb : Byte) : compareFlags va vb ≠ .none := by
  unfold compareFlags
  split_ifs <;> decide

theorem Effect.fl_of_not_cmp {s t : State} {i : Instr} (h : Effect s i t) (hi : ∀ a b, i ≠ .cmp a b) :
    t.fl = s.fl := by
  cases h
  case cmp => exact absurd rfl (hi _ _)
  case jeq | jne => split <;> rfl
  all_goals rfl

theorem Effect.fl_cmp_ne_none {s t : State} {a b : Byte} (h : Effect s (.cmp a b) t) : t.fl ≠ .none := by
  cases h with
  | cmp => exact compareFlags_ne_none _ _

theorem exec_fl_of_not_cmp {s t : State} {i : Instr} (h : exec i s = .next t) (hi : ∀ a b, i ≠ .cmp a b) :
    t.fl = s.fl := by
  rcases exec_ends s h with heff | ⟨e, -, rfl⟩
  · exact heff.fl_of_not_cmp hi
  · rfl

/-- A CMP sets FL to an outcome, or it aborts and leaves FL alone. -/
theorem exec_cmp_fl {s t : State} {a b : Byte} (h : exec (.cmp a b) s = .next t) :
    t.fl ≠ .none ∨ (t.rs = .haltedFault ∧ t.fl = s.fl) := by
  rcases exec_ends s h with heff | ⟨e, -, rfl⟩
  · exact .inl heff.fl_cmp_ne_none
  · exact .inr ⟨rfl, rfl⟩

theorem exec_fl_ne_none {s t : State} {i : Instr} (h : exec i s = .next t) (hs : s.fl ≠ .none) :
    t.fl ≠ .none := by
  by_cases hi : ∃ a b, i = .cmp a b
  · obtain ⟨a, b, rfl⟩ := hi
    rcases exec_cmp_fl h with hne | ⟨-, heq⟩
    · exact hne
    · exact heq ▸ hs
  · rw [exec_fl_of_not_cmp h fun a b he => hi ⟨a, b, he⟩]
    exact hs

/-- Settles O22: what is written by the inversion of `exec`, what is read by noninterference for states
that are the same but for FL. -/
theorem flagsWrittenByCmpReadByJumpsOnly : Obligations.FlagsWrittenByCmpReadByJumpsOnly := by
  refine ⟨rfl, fun i s t ht => ⟨exec_fl_of_not_cmp ht, ?_, exec_fl_ne_none ht, fun f u hf hu => ?_⟩⟩
  · rintro a b rfl hrs
    exact (exec_cmp_fl ht).resolve_right fun ⟨hfault, _⟩ => hrs hfault
  · have hin : SameInputs i s (s.setFl f) :=
      { regs := fun _ _ => rfl
        flag := hf
        load := fun _ => rfl }
    exact exec_related (R := SameButFl) keptByOps_sameButFl (sameButFl_setFl s f) hin ht hu

/-! ## The output (`10_state.md` R34) -/

/-- `t` is `s` but for OUT. -/
def SameButOut (s t : State) : Prop := { t with out := s.out } = s

theorem sameButOut_withOut (s : State) (o : List Byte) : SameButOut s { s with out := o } := rfl

theorem keptByOps_sameButOut : KeptByOps SameButOut where
  pc_eq {s s'} h := show { s' with out := s.out }.pc = s.pc from congrArg State.pc h
  setReg d v h := congrArg (State.setReg · d v) h
  setPc n h := congrArg (State.setPc · n) h
  setFl f h := congrArg (State.setFl · f) h
  setRs r h := congrArg (State.setRs · r) h
  emit v h := congrArg (State.emit · v) h
  poke a v h := congrArg (State.poke · a v) h
  abort e _ h := congrArg (State.takeException · e) h

theorem Effect.out_of_not_prn {s t : State} {i : Instr} (h : Effect s i t) (hi : ∀ a, i ≠ .prn a) :
    t.out = s.out := by
  cases h
  case prn => exact absurd rfl (hi _)
  case jeq | jne => split <;> rfl
  all_goals rfl

theorem exec_out_of_not_prn {s t : State} {i : Instr} (h : exec i s = .next t) (hi : ∀ a, i ≠ .prn a) :
    t.out = s.out := by
  rcases exec_ends s h with heff | ⟨e, -, rfl⟩
  · exact heff.out_of_not_prn hi
  · rfl

/-- A PRN appends the value of its register, or it aborts and leaves OUT alone. -/
theorem exec_prn_out {s t : State} {a : Byte} (h : exec (.prn a) s = .next t) :
    t.out = s.out ∨ ∃ d, Names a d ∧ t.out = s.out ++ [s.getReg d] := by
  rcases exec_ends s h with heff | ⟨e, -, rfl⟩
  · cases heff with
    | prn ha => exact .inr ⟨_, ha, rfl⟩
  · exact .inl rfl

/-- Settles O23: what is appended by the inversion of `exec`, that nothing reads it by noninterference for
states that are the same but for OUT. -/
theorem outGrowsByPrnOnly : Obligations.OutGrowsByPrnOnly := by
  refine ⟨rfl, fun _ => rfl, fun i s t ht => ⟨?_, exec_out_of_not_prn ht, fun o u hu => ?_⟩⟩
  · by_cases hi : ∃ a, i = .prn a
    · obtain ⟨a, rfl⟩ := hi
      exact (exec_prn_out ht).imp_right fun ⟨d, ha, hout⟩ => ⟨a, d, rfl, ha, hout⟩
    · exact .inl (exec_out_of_not_prn ht fun a he => hi ⟨a, he⟩)
  · have hin : SameInputs i s { s with out := o } :=
      { regs := fun _ _ => rfl
        flag := fun _ => Iff.rfl
        load := fun _ => rfl }
    exact exec_related (R := SameButOut) keptByOps_sameButOut (sameButOut_withOut s o) hin ht hu

end Sys2Proof.Machine
end

section
/-! PROOFS. The host's `load` (`20_memory.md` R63): what an image written from address 0 on leaves in each
cell, and which of the two refusals answers where it is not written. -/

namespace Sys2Proof.Machine

theorem Memory.read_image_of_lt (m : Memory) {image : List Byte} {i : Nat} (hi : i < image.length) :
    Memory.read (Memory.writeAll m 0 image) i = image[i] := by
  rw [Memory.read_writeAll, dif_pos ⟨Nat.zero_le i, hi⟩]
  rfl

theorem Memory.read_image_of_length_le (m : Memory) {image : List Byte} {a : Nat}
    (ha : image.length ≤ a) : Memory.read (Memory.writeAll m 0 image) a = Memory.read m a := by
  rw [Memory.read_writeAll, dif_neg fun h => Nat.not_lt.mpr ha h.2]

theorem hostLoad_image_too_long {s : State} {bytes : List Byte} (hs : s.rs = .idle)
    (h : 256 < bytes.length) : hostLoad bytes s = .refused .imageTooLong := by
  rw [hostLoad, if_neg (not_not_intro hs), if_pos (show Config.memSize < bytes.length from h)]

theorem hostLoad_outside_idle {s : State} (bytes : List Byte) (hs : s.rs ≠ .idle) :
    hostLoad bytes s = .refused .loadOutsideIdle := if_pos hs

/-- Settles O49: `load` answers with the image written over memory, read back cell by cell; every other
field is the same. -/
theorem loadWritesTheImageAndNothingElse : Obligations.LoadWritesTheImageAndNothingElse := by
  refine fun s bytes => ⟨fun hs hlen => ?_, hostLoad_image_too_long, hostLoad_outside_idle bytes⟩
  exact ⟨_, hostLoad_idle hs hlen, fun _ => Memory.read_image_of_lt s.mem,
    fun _ => Memory.read_image_of_length_le s.mem, fun _ => rfl, rfl, rfl, rfl, rfl, rfl⟩

end Sys2Proof.Machine
end

section
/-! PROOFS. The check of the register operands (`30_encoding.md` R87): the meanings check operand A, then
operand B, before they do anything else, so the first operand above 7 settles what an instruction does. -/

namespace Sys2Proof.Machine

/-- The first byte of a list of register operands that names no register, if there is one. -/
def firstBadOperand (operands : List Byte) : Option Byte := operands.find? fun k => !namesRegister k

/-- A byte above 7, after bytes that are not, is the first bad operand. -/
theorem firstBadOperand_append_cons {before : List Byte} (after : List Byte) {k : Byte}
    (hbefore : ∀ j ∈ before, j.toNat ≤ 7) (hk : 7 < k.toNat) :
    firstBadOperand (before ++ k :: after) = some k := by
  refine List.find?_eq_some_iff_append.mpr ⟨?_, before, after, rfl, fun j hj => ?_⟩
  · simpa [namesRegister] using Nat.succ_le_of_lt hk
  · simpa [namesRegister] using Nat.lt_succ_of_le (hbefore j hj)

/-- The operands after one that names a register are searched on. -/
theorem firstBadOperand_cons_of_names {a : Byte} {d : RegIndex} (operands : List Byte) (ha : Names a d) :
    firstBadOperand (a :: operands) = firstBadOperand operands := by
  have hlt : a.toNat < 8 := by rw [show a.toNat = d.val from ha]; exact d.isLt
  simp [firstBadOperand, namesRegister, hlt]

theorem firstBadOperand_cons_of_gt {a : Byte} (operands : List Byte) (ha : 7 < a.toNat) :
    firstBadOperand (a :: operands) = some a :=
  firstBadOperand_append_cons (before := []) operands (List.forall_mem_nil _) ha

/-- One step of the check: a bad operand here aborts, and a good one leaves the rest to be checked. -/
theorem reg_bind_of_firstBadOperand {a k : Byte} {operands : List Byte} {f : RegIndex → Except Exc State}
    (h : firstBadOperand (a :: operands) = some k)
    (hrest : ∀ d, firstBadOperand operands = some k → f d = .error (.addressReg k)) :
    (reg a >>= f) = .error (.addressReg k) := by
  rcases reg_cases a with ⟨d, ha, hd⟩ | ⟨hgt, hd⟩
  · rw [hd, except_ok_bind]
    exact hrest d (firstBadOperand_cons_of_names operands ha ▸ h)
  · rw [firstBadOperand_cons_of_gt operands hgt] at h
    cases h
    rw [hd, except_error_bind]

/-- The shape of every meaning with one register operand. -/
theorem settle_reg_bind_of_bad {a k : Byte} (s : State) (f : RegIndex → Except Exc State)
    (h : firstBadOperand [a] = some k) :
    settle s (reg a >>= f) = .next (s.takeException (.addressReg k)) := by
  rw [reg_bind_of_firstBadOperand h nofun, settle_error]

/-- The shape of every meaning with two register operands, whatever the operation. -/
theorem aluTwo_of_bad {a b k : Byte} (operation : Mnemonic) (s : State)
    (h : firstBadOperand [a, b] = some k) :
    aluTwo operation a b s = .next (s.takeException (.addressReg k)) := by
  rw [aluTwo, reg_bind_of_firstBadOperand h fun _ hb => reg_bind_of_firstBadOperand hb nofun, settle_error]

/-- An instruction with a bad register operand takes AddressError(reg, the first one), and nothing else
happens. -/
theorem exec_of_firstBadOperand {i : Instr} {k : Byte} (s : State)
    (h : firstBadOperand i.regOperands = some k) :
    exec i s = .next (s.takeException (.addressReg k)) := by
  cases i with
  | hlt | ret => cases h
  | ldi | prn | not | push | pop | call | jmp | jeq | jne => exact settle_reg_bind_of_bad s _ h
  | add | mul | mod | and | or | xor | shl | shr | cmp => exact aluTwo_of_bad _ s h

/-- Settles O18: the operand that the statement singles out is the first bad one. -/
theorem firstBadRegisterOperandFaults : Obligations.FirstBadRegisterOperandFaults := by
  intro i s before after k hoperands hbefore hk
  have hfirst : firstBadOperand i.regOperands = some k :=
    hoperands ▸ firstBadOperand_append_cons after hbefore hk
  exact ⟨_, exec_of_firstBadOperand s hfirst, s.takeException_aborted _⟩

end Sys2Proof.Machine
end

section
/-! PROOFS. The execution cycle (`40_execution_cycle.md`): the fetch, an equation for each of the ways it can
go, and the step after it (R111); `pc` after an instruction, read off the effect of one that completed (R116);
HLT (R114). -/

namespace Sys2Proof.Machine

variable {c : Config} {s t : State} {i : Instr} {m : Mnemonic}

/-! ## The parts of a step (R111) -/

/-- Part 1 fails where there is no byte at `pc`. -/
theorem fetch_of_pc_ge (h : 256 ≤ s.pc) : fetch c s = .error (.addressMem s.pc) := by
  rw [fetch, memRead_of_ge s h, except_error_bind]

/-- Part 2 fails before any operand byte is fetched. -/
theorem fetch_of_unregistered (hpc : s.pc < 256) (hop : lookup c (s.peek s.pc) = none) :
    fetch c s = .error (.unknownOpcode (s.peek s.pc)) := by
  simp only [fetch, memRead_of_lt s hpc, except_ok_bind, hop]

/-- A registered opcode leaves the prefetch of part 3, of two bytes whatever the mnemonic is. -/
theorem fetch_of_registered (hpc : s.pc < 256) (hop : lookup c (s.peek s.pc) = some m) :
    fetch c s = (memRead (s.pc + 1 : Nat) s >>= fun a => memRead (s.pc + 2 : Nat) s >>= fun b =>
      .ok (assemble m a b)) := by
  simp only [fetch, memRead_of_lt s hpc, except_ok_bind, hop]

/-- Part 3 fails at the last two addresses, at the byte 256: from 255 it is operand A, from 254
operand B. -/
theorem fetch_of_prefetch_outside (hop : lookup c (s.peek s.pc) = some m) (hpc : s.pc = 255 ∨ s.pc = 254) :
    fetch c s = .error (.addressMem 256) := by
  rw [fetch_of_registered (by omega) hop]
  rcases hpc with hpc | hpc <;> rw [hpc]
  · rw [memRead_of_ge s (le_refl 256), except_error_bind]
    rfl
  · rw [memRead_of_lt s (by decide : 254 + 1 < 256), except_ok_bind, memRead_of_ge s (le_refl 256),
      except_error_bind]
    rfl

theorem fetch_of_prefetch_inside (hop : lookup c (s.peek s.pc) = some m) (hpc : s.pc ≤ 253) :
    fetch c s = .ok (assemble m (s.peek (s.pc + 1)) (s.peek (s.pc + 2))) := by
  rw [fetch_of_registered (by omega) hop, memRead_of_lt s (by omega), except_ok_bind,
    memRead_of_lt s (by omega), except_ok_bind]

theorem stepWith_of_fetch_ok (hs : s.rs = .running) (hf : fetch c s = .ok i) :
    stepWith c s = exec i s := by
  rw [stepWith_running hs, hf]

/-- A fetch that fails aborts the step, and the abort is all that happens. -/
theorem stepWith_aborts_of_fetch_error {e : Exc} (hs : s.rs = .running) (hf : fetch c s = .error e) :
    Answers (stepWith c s) fun t =>
      Aborted s t e.cause e.info (if e.cause = .unknownOpcode then some s.trace else none) :=
  ⟨s.takeException e, by rw [stepWith_running hs, hf], s.takeException_aborted e⟩

/-- Settles O37: each clause is one way the fetch can go; an injective map finds the mnemonic named. -/
theorem stepFetchesInOrder : Obligations.StepFetchesInOrder := by
  refine fun c s hc hs => ⟨fun hpc => ?_, fun hpc hop => ?_, fun m hm => ?_⟩
  · exact stepWith_aborts_of_fetch_error hs (fetch_of_pc_ge hpc)
  · have hf := fetch_of_unregistered (Nat.lt_succ_of_le hpc) (lookup_eq_none.mpr hop)
    obtain ⟨t, ht, habort⟩ := stepWith_aborts_of_fetch_error hs hf
    exact ⟨t, ht, _, habort⟩
  · have hop : lookup c (s.peek s.pc) = some m := hm ▸ lookup_opcode hc m
    exact ⟨fun hpc => stepWith_aborts_of_fetch_error hs (fetch_of_prefetch_outside hop hpc),
      fun hpc => stepWith_of_fetch_ok hs (fetch_of_prefetch_inside hop hpc)⟩

/-! ## `pc` after an instruction (R116) -/

/-- An instruction that completed left `pc` where its table row says. The target register of a jump is the
one that its operand names. -/
theorem Effect.pcAfter (h : Effect s i t) : PcAfter i s t := by
  cases h with
  | hlt | ldi | prn | not | push | pop | ret | cmp => rfl
  | add | mul | mod | and | or | xor | shl | shr => rfl
  | call ha | jmp ha =>
    intro r hr
    cases names_unique hr ha
    rfl
  | jeq ha | jne ha =>
    intro r hr
    cases names_unique hr ha
    exact apply_ite State.pc _ _ _

/-- Settles O24: an instruction that did not fault completed, and its effect tells its `pc`. -/
theorem pcAfterEachInstruction : Obligations.PcAfterEachInstruction := by
  intro i s t _ ht hfault
  rcases exec_ends s ht with heff | ⟨e, -, rfl⟩
  · exact heff.pcAfter
  · exact absurd rfl hfault

/-! ## HLT (R114) -/

/-- Settles O1: HLT sets RS and advances `pc`, two updates that leave every other field alone. -/
theorem hltHaltsWithStatusZero : Obligations.HltHaltsWithStatusZero := fun _ s =>
  ⟨rfl, (s.setRs .haltedOk).advance 1, execHlt_eq s, rfl, rfl, rfl, fun _ => rfl, rfl, fun _ => rfl, rfl,
    rfl⟩

end Sys2Proof.Machine
end

section
/-! PROOFS. Load immediate and output (`41_load_immediate_and_output.md`): the check of a sole register
operand and the frame of a register write, each said once for every instruction that has it, then LDI (R130)
and PRN (R131). -/

namespace Sys2Proof.Machine

/-- An instruction whose only register operand is A checks it (`30_encoding.md` R87). -/
theorem checksOperandA_of_regOperands {f : Byte → Instr} (s : State) (hf : ∀ a, (f a).regOperands = [a]) :
    ChecksOperandA f s := by
  intro a ha
  have hfirst : firstBadOperand (f a).regOperands = some a := by
    rw [hf a]
    exact firstBadOperand_cons_of_gt [] ha
  exact ⟨_, exec_of_firstBadOperand s hfirst, s.takeException_aborted _⟩

/-- A register write followed by the advance of `pc` leaves everything else alone. -/
theorem onlyReg_setReg_advance (s : State) (d : RegIndex) (v : Byte) (n : Nat) :
    OnlyReg s ((s.setReg d v).advance n) d n where
  regs _ hq := s.getReg_setReg_ne v hq
  pc := rfl
  fl := rfl
  memory _ := rfl
  out := rfl
  run := ⟨rfl, rfl⟩

/-- The host prints an emitted value as one more line, its decimal numeral. -/
theorem State.outputLines_emit (s : State) (v : Byte) :
    (s.emit v).outputLines = s.outputLines ++ [toString v.toNat] := List.map_append

/-- Settles O2: LDI on a register that exists is one register write and the advance. -/
theorem ldiLoadsItsImmediate : Obligations.LdiLoadsItsImmediate := by
  refine fun c s imm => ⟨checksOperandA_of_regOperands s fun _ => rfl, fun a => ⟨rfl, fun d ha => ?_⟩⟩
  exact ⟨_, execLdi_eq s imm ha, s.getReg_setReg_self d imm, onlyReg_setReg_advance s d imm 3⟩

/-- Settles O3: PRN on a register that exists is one emission and the advance, which touch OUT and `pc`
alone. -/
theorem prnAppendsOneValueToOut : Obligations.PrnAppendsOneValueToOut := by
  refine fun c s => ⟨checksOperandA_of_regOperands s fun _ => rfl, fun a => ⟨rfl, fun d ha => ?_⟩⟩
  exact ⟨_, execPrn_eq s ha, rfl, s.outputLines_emit (s.getReg d), fun _ => rfl, rfl, rfl, fun _ => rfl,
    rfl, rfl⟩

end Sys2Proof.Machine
end

section
/-! PROOFS. The ALU (`42_alu.md`): first the results as numbers and bits (R153), then what a two-register
instruction does on operands that name registers, said once for all of them (R140), and from the two the rules
R142 to R151; R154 is their case of one register named twice. -/

namespace Sys2Proof.Machine

/-! ## The results on the unsigned values (R153) -/

section Results

variable (va vb : Byte)

theorem aluAdd_toNat : (aluAdd va vb).toNat = (va.toNat + vb.toNat) % 256 := trunc8_toNat _

theorem aluMul_toNat : (aluMul va vb).toNat = (va.toNat * vb.toNat) % 256 := trunc8_toNat _

/-- A remainder never exceeds the dividend, so the narrowing loses nothing. -/
theorem aluMod_toNat : (aluMod va vb).toNat = va.toNat % vb.toNat := by
  rw [aluMod, trunc8_toNat]
  exact Nat.mod_eq_of_lt ((Nat.mod_le _ _).trans_lt va.isLt)

/-- Within 8 bits, 255 minus a value is its complement. -/
theorem aluNot_eq_complement : aluNot va = ~~~va := by
  refine BitVec.eq_of_toNat_eq ?_
  rw [aluNot, trunc8_toNat, BitVec.toNat_not]
  omega

theorem aluNot_toNat : (aluNot va).toNat = 255 - va.toNat := by
  rw [aluNot_eq_complement, BitVec.toNat_not]

theorem aluNot_getLsbD {i : Nat} (hi : i < 8) : (aluNot va).getLsbD i = !va.getLsbD i := by
  rw [aluNot_eq_complement, BitVec.getLsbD_not, decide_eq_true hi, Bool.true_and]

/-- Shifting a byte left by 8 or more leaves a multiple of 256. -/
theorem mul_two_pow_mod_of_ge {n : Nat} (v : Nat) (hn : 8 ≤ n) : v * 2 ^ n % 256 = 0 :=
  Nat.mod_eq_zero_of_dvd ((pow_dvd_pow 2 hn).mul_left v)

/-- Shifting a byte right by 8 or more leaves nothing. -/
theorem toNat_div_two_pow_of_ge {n : Nat} (hn : 8 ≤ n) : va.toNat / 2 ^ n = 0 :=
  Nat.div_eq_of_lt (va.isLt.trans_le (Nat.pow_le_pow_right two_pos hn))

theorem aluShl_toNat : (aluShl va vb).toNat = va.toNat * 2 ^ vb.toNat % 256 := by
  rw [aluShl]
  split
  · next hn => exact (mul_two_pow_mod_of_ge va.toNat hn).symm
  · exact trunc8_toNat _

theorem aluShr_toNat : (aluShr va vb).toNat = va.toNat / 2 ^ vb.toNat := by
  rw [aluShr]
  split
  · next hn => exact (toNat_div_two_pow_of_ge va hn).symm
  · rw [trunc8_toNat]
    exact Nat.mod_eq_of_lt ((Nat.div_le_self _ _).trans_lt va.isLt)

theorem aluShl_toNat_of_ge (hn : 8 ≤ vb.toNat) : (aluShl va vb).toNat = 0 := by
  rw [aluShl_toNat, mul_two_pow_mod_of_ge _ hn]

theorem aluShr_toNat_of_ge (hn : 8 ≤ vb.toNat) : (aluShr va vb).toNat = 0 := by
  rw [aluShr_toNat, toNat_div_two_pow_of_ge va hn]

theorem compareFlags_eq_equal : compareFlags va vb = .equal ↔ va.toNat = vb.toNat := by
  unfold compareFlags
  split_ifs <;> simp [*]

theorem compareFlags_eq_greater : compareFlags va vb = .greater ↔ va.toNat > vb.toNat := by
  unfold compareFlags
  split_ifs <;> simp [*]

theorem compareFlags_eq_less : compareFlags va vb = .less ↔ va.toNat < vb.toNat := by
  unfold compareFlags
  split_ifs <;> simp <;> omega

end Results

theorem aluApply_mod_of_eq {s : State} (d : RegIndex) {r : RegIndex} (h : (s.getReg r).toNat = 0) :
    aluApply .mod d r s = .error (.divisionByZero r) := if_pos h

theorem aluApply_mod_of_ne {s : State} (d : RegIndex) {r : RegIndex} (h : (s.getReg r).toNat ≠ 0) :
    aluApply .mod d r s = .ok (s.setReg d (aluMod (s.getReg d) (s.getReg r))) := if_neg h

/-- Settles O16: the results, one lemma each. -/
theorem aluResultsAreUnsignedModulo256 : Obligations.AluResultsAreUnsignedModulo256 := by
  refine fun va vb => ⟨aluAdd_toNat va vb, aluMul_toNat va vb, fun _ => aluMod_toNat va vb, fun i _ => ?_,
    aluNot_toNat va, aluShl_toNat va vb, fun hn => ?_, aluShr_toNat va vb,
    fun _ d _ => aluApply_mod_of_eq d, compareFlags_eq_equal va vb, compareFlags_eq_greater va vb,
    compareFlags_eq_less va vb⟩
  · exact ⟨BitVec.getLsbD_and, BitVec.getLsbD_or, BitVec.getLsbD_xor⟩
  · exact ⟨aluShl_toNat_of_ge va vb hn, aluShr_toNat_of_ge va vb hn⟩

/-! ## The two-register instructions (R140) -/

theorem State.getReg_setReg_advance_self (s : State) (d : RegIndex) (v : Byte) (n : Nat) :
    ((s.setReg d v).advance n).getReg d = v := by
  rw [State.advance_getReg, State.getReg_setReg_self]

/-- An instruction whose register operands are A and B checks them in this order (`30_encoding.md` R87). -/
theorem checksBothOperands_of_regOperands {f : Byte → Byte → Instr} (s : State)
    (hf : ∀ a b, (f a b).regOperands = [a, b]) : ChecksBothOperands f s := by
  refine fun a b => ⟨fun ha => ?_, fun ha hb => ?_⟩
  · exact firstBadRegisterOperandFaults (f a b) s [] [b] a (hf a b) nofun ha
  · exact firstBadRegisterOperandFaults (f a b) s [a] [] b (hf a b) (by simpa using ha) hb

section TwoRegisters

variable {a b : Byte} {d r : RegIndex} {s : State} (operation : Mnemonic)

/-- An operation that succeeds leaves its state to be advanced. -/
theorem aluTwo_of_aluApply_ok {u : State} (ha : Names a d) (hb : Names b r)
    (hop : aluApply operation d r s = .ok u) :
    aluTwo operation a b s = .next (u.advance operation.length) := by
  rw [aluTwo_of_names s operation ha hb, hop, except_ok_bind, settle_ok]

/-- An operation that fails aborts the instruction. -/
theorem aluTwo_of_aluApply_error {e : Exc} (ha : Names a d) (hb : Names b r)
    (hop : aluApply operation d r s = .error e) : aluTwo operation a b s = .next (s.takeException e) := by
  rw [aluTwo_of_names s operation ha hb, hop, except_error_bind, settle_error]

/-- A three-byte instruction that hands its operands to an ALU operation which writes `alu` of the two values
to register A writes that result. -/
theorem writesResult_of_aluApply {f : Byte → Byte → Instr} {alu : Byte → Byte → Byte}
    {result : Byte → Byte → Byte → Prop} (hexec : ∀ a b, exec (f a b) s = aluTwo operation a b s)
    (hlen : operation.length = 3)
    (hop : ∀ d r, aluApply operation d r s = .ok (s.setReg d (alu (s.getReg d) (s.getReg r))))
    (hresult : ∀ va vb, result va vb (alu va vb)) : WritesResult f s result := by
  intro a b d r ha hb
  refine ⟨(s.setReg d (alu (s.getReg d) (s.getReg r))).advance 3, ?_, ?_, onlyReg_setReg_advance s d _ 3⟩
  · rw [hexec, aluTwo_of_aluApply_ok operation ha hb (hop d r), hlen]
  · rw [State.getReg_setReg_advance_self]
    exact hresult _ _

end TwoRegisters

/-- Settles O4: the results are those of the ALU, narrowed to 8 bits. -/
theorem addAndMulWrapModulo256 : Obligations.AddAndMulWrapModulo256 := by
  refine fun c s => ⟨⟨?_, ?_⟩, ⟨?_, ?_⟩, fun a b => ⟨rfl, rfl⟩⟩
  · exact checksBothOperands_of_regOperands s fun _ _ => rfl
  · exact writesResult_of_aluApply .add (fun _ _ => rfl) rfl (fun _ _ => rfl) aluAdd_toNat
  · exact checksBothOperands_of_regOperands s fun _ _ => rfl
  · exact writesResult_of_aluApply .mul (fun _ _ => rfl) rfl (fun _ _ => rfl) aluMul_toNat

/-- Settles O5: the quotient and the remainder are those of the division of natural numbers. -/
theorem modWritesRemainderOrFaults : Obligations.ModWritesRemainderOrFaults := by
  refine fun c s =>
    ⟨checksBothOperands_of_regOperands s fun _ _ => rfl, fun a b => ⟨rfl, fun d r ha hb => ?_⟩⟩
  refine ⟨fun hne => ?_, fun hzero => ?_⟩
  · refine ⟨_, aluTwo_of_aluApply_ok .mod ha hb (aluApply_mod_of_ne d hne), ?_, ?_,
      onlyReg_setReg_advance s d _ 3⟩
    · rw [State.getReg_setReg_advance_self, aluMod_toNat]
      exact Nat.mod_lt _ (Nat.pos_of_ne_zero hne)
    · rw [State.getReg_setReg_advance_self, aluMod_toNat]
      exact ⟨_, (Nat.div_add_mod' _ _).symm⟩
  · exact ⟨_, aluTwo_of_aluApply_error .mod ha hb (aluApply_mod_of_eq d hzero), s.takeException_aborted _⟩

/-- Settles O6: the three operations are the bit vectors' own. -/
theorem andOrXorCombineBitByBit : Obligations.AndOrXorCombineBitByBit := by
  refine fun c s => ⟨⟨?_, ?_⟩, ⟨?_, ?_⟩, ⟨?_, ?_⟩, fun a b => ⟨rfl, rfl, rfl⟩⟩
  · exact checksBothOperands_of_regOperands s fun _ _ => rfl
  · exact writesResult_of_aluApply .and (fun _ _ => rfl) rfl (fun _ _ => rfl) fun _ _ _ _ =>
      BitVec.getLsbD_and
  · exact checksBothOperands_of_regOperands s fun _ _ => rfl
  · exact writesResult_of_aluApply .or (fun _ _ => rfl) rfl (fun _ _ => rfl) fun _ _ _ _ =>
      BitVec.getLsbD_or
  · exact checksBothOperands_of_regOperands s fun _ _ => rfl
  · exact writesResult_of_aluApply .xor (fun _ _ => rfl) rfl (fun _ _ => rfl) fun _ _ _ _ =>
      BitVec.getLsbD_xor

/-- Settles O8: from a count of 8 on the ALU answers 0, which is what the exact arithmetic gives there. -/
theorem shiftsUseTheWholeCount : Obligations.ShiftsUseTheWholeCount := by
  refine fun c s => ⟨⟨?_, ?_⟩, ⟨?_, ?_⟩, fun a b => ⟨rfl, rfl⟩⟩
  · exact checksBothOperands_of_regOperands s fun _ _ => rfl
  · exact writesResult_of_aluApply .shl (fun _ _ => rfl) rfl (fun _ _ => rfl) fun va n =>
      ⟨aluShl_toNat va n, aluShl_toNat_of_ge va n⟩
  · exact checksBothOperands_of_regOperands s fun _ _ => rfl
  · exact writesResult_of_aluApply .shr (fun _ _ => rfl) rfl (fun _ _ => rfl) fun va n =>
      ⟨aluShr_toNat va n, aluShr_toNat_of_ge va n⟩

/-- Settles O9: CMP writes the comparison's outcome over FL, and `pc`, and no other field. -/
theorem cmpSetsFlagsByUnsignedOrder : Obligations.CmpSetsFlagsByUnsignedOrder := by
  refine fun c s =>
    ⟨checksBothOperands_of_regOperands s fun _ _ => rfl, fun a b => ⟨rfl, fun d r ha hb => ?_⟩⟩
  exact ⟨_, aluTwo_of_aluApply_ok .cmp ha hb rfl, compareFlags_eq_equal _ _, compareFlags_eq_greater _ _,
    compareFlags_eq_less _ _, compareFlags_ne_none _ _, fun _ => rfl, rfl, fun _ => rfl, rfl, rfl, rfl⟩

/-- Settles O7: subtraction from 255 and complement are one result. -/
theorem notInvertsEveryBit : Obligations.NotInvertsEveryBit := by
  refine fun c s => ⟨checksOperandA_of_regOperands s fun _ => rfl, fun a => ⟨rfl, fun d ha => ?_⟩⟩
  refine ⟨_, execNot_eq s ha, ?_, fun i hi => ?_, onlyReg_setReg_advance s d _ 2⟩
  · rw [State.getReg_setReg_advance_self, aluNot_toNat]
  · rw [State.getReg_setReg_advance_self, aluNot_getLsbD _ hi]

/-! ## One register named twice (R154) -/

theorem Answers.imp {answer : Result} {P Q : State → Prop} (h : Answers answer P) (hPQ : ∀ t, P t → Q t) :
    Answers answer Q :=
  Exists.imp (fun t => And.imp_right (hPQ t)) h

/-- A number divided by itself leaves no remainder. -/
theorem remainder_of_self {v q rem : Nat} (hlt : rem < v) (hdiv : v = q * v + rem) : rem = 0 :=
  calc
    rem = (q * v + rem) % v := by rw [Nat.mul_add_mod', Nat.mod_eq_of_lt hlt]
    _ = 0 := by rw [← hdiv, Nat.mod_self]

/-- Settles O17: each clause is the instruction's own rule at d = r, so that both operands are the value read
before the write. -/
theorem sameRegisterTwiceIsReadBeforeWritten : Obligations.SameRegisterTwiceIsReadBeforeWritten := by
  intro s k d hk
  obtain ⟨⟨-, hadd⟩, ⟨-, hmul⟩, -⟩ := addAndMulWrapModulo256 Config.engine s
  obtain ⟨-, hmod⟩ := modWritesRemainderOrFaults Config.engine s
  obtain ⟨⟨-, hand⟩, ⟨-, hor⟩, ⟨-, hxor⟩, -⟩ := andOrXorCombineBitByBit Config.engine s
  obtain ⟨⟨-, hshl⟩, ⟨-, hshr⟩, -⟩ := shiftsUseTheWholeCount Config.engine s
  obtain ⟨-, hcmp⟩ := cmpSetsFlagsByUnsignedOrder Config.engine s
  obtain ⟨-, hmod⟩ := hmod k k
  obtain ⟨-, hcmp⟩ := hcmp k k
  obtain ⟨hrem, hzero⟩ := hmod d d hk hk
  refine ⟨(hadd k k d d hk hk).imp ?_, (hmul k k d d hk hk).imp ?_, fun hne => (hrem hne).imp ?_, hzero,
    (hand k k d d hk hk).imp ?_, (hor k k d d hk hk).imp ?_, (hxor k k d d hk hk).imp ?_,
    (hshl k k d d hk hk).imp ?_, (hshr k k d d hk hk).imp ?_, (hcmp d d hk hk).imp ?_⟩
  · rintro t ⟨hsum, -⟩
    rw [hsum, two_mul]
  · rintro t ⟨hproduct, -⟩
    rw [hproduct, sq]
  · rintro t ⟨hlt, ⟨q, hdiv⟩, -⟩
    exact remainder_of_self hlt hdiv
  · rintro t ⟨hbits, -⟩
    exact BitVec.eq_of_getLsbD_eq fun i hi => (hbits i hi).trans (Bool.and_self _)
  · rintro t ⟨hbits, -⟩
    exact BitVec.eq_of_getLsbD_eq fun i hi => (hbits i hi).trans (Bool.or_self _)
  · rintro t ⟨hbits, -⟩
    have hclear : t.getReg d = 0 := by
      refine BitVec.eq_of_getLsbD_eq fun i hi => ?_
      rw [hbits i hi, Bool.xor_self, BitVec.ofNat_eq_ofNat, BitVec.getLsbD_zero]
    rw [hclear]
    rfl
  · rintro t ⟨⟨hshifted, -⟩, -⟩
    exact hshifted
  · rintro t ⟨⟨hshifted, -⟩, -⟩
    rw [hshifted, Nat.div_eq_of_lt Nat.lt_two_pow_self]
  · rintro t ⟨hequal, -⟩
    exact hequal.mpr rfl

end Sys2Proof.Machine
end

section
/-! PROOFS. The stack instructions (`43_stack.md`): the fault that the check of the stack pointer gives each
(R171, D6), then PUSH (R172) and POP (R173). Each completion is that of the equations of the meanings, read
one register and one cell at a time. -/

namespace Sys2Proof.Machine

section Faults

variable {a : Byte} {d : RegIndex} (s : State)

theorem execPush_of_sp_eq (ha : Names a d) (hsp : s.sp.toNat = 0) :
    execPush a s = .next (s.takeException (.addressMem (-1))) := by
  simp only [execPush, reg_of_names ha, except_ok_bind, decrementSp_of_eq hsp, except_error_bind,
    settle_error]

/-- The pointer checked is the one that stands after register A is written. -/
theorem execPop_of_sp_eq (ha : Names a d) (hsp : (s.setReg d (s.peek s.sp.toNat)).sp.toNat = 255) :
    execPop a s = .next (s.takeException (.addressMem 256)) := by
  simp only [execPop, reg_of_names ha, memRead_byte, except_ok_bind, incrementSp_of_eq hsp,
    except_error_bind, settle_error]

end Faults

theorem State.getReg_setSp_ne (s : State) {q : RegIndex} (v : Byte) (hq : q ≠ 7) :
    (s.setSp v).getReg q = s.getReg q := s.getReg_setReg_ne v hq

theorem State.toNat_decremented_sp {s : State} (h : s.sp.toNat ≠ 0) :
    ((s.setSp (BitVec.ofNat 8 (s.sp.toNat - 1))).getReg 7).toNat = s.sp.toNat - 1 :=
  (congrArg BitVec.toNat (s.setSp_sp _)).trans (toNat_pred_sp h)

theorem State.toNat_incremented_sp {s : State} (h : s.sp.toNat ≠ 255) :
    ((s.setSp (BitVec.ofNat 8 (s.sp.toNat + 1))).getReg 7).toNat = s.sp.toNat + 1 :=
  (congrArg BitVec.toNat (s.setSp_sp _)).trans (toNat_succ_sp h)

/-- Settles O10: the byte stored is register A of the state after the decrement, and the store and the
advance leave every register. -/
theorem pushStoresBelowTheStackPointer : Obligations.PushStoresBelowTheStackPointer := by
  refine fun c s => ⟨checksOperandA_of_regOperands s fun _ => rfl, fun a => ⟨rfl, fun d ha => ?_⟩⟩
  refine ⟨fun hne => ?_, fun hzero => ?_⟩
  · refine ⟨_, execPush_eq s ha hne, State.toNat_decremented_sp hne, State.peek_poke_self _ _ _,
      fun q hq => ?_, fun k hk => ?_, rfl, rfl, rfl, rfl, rfl⟩
    · exact s.getReg_setSp_ne _ hq
    · exact State.peek_poke_ne _ _ hk
  · exact ⟨_, execPush_of_sp_eq s ha hzero, s.takeException_aborted _⟩

/-- Settles O11: the write to register A leaves x[7] alone when A is another register, and is x[7] itself when
A is 7; the check and the increment then apply to the old pointer, or to the popped byte. -/
theorem popLoadsThenIncrements : Obligations.PopLoadsThenIncrements := by
  refine fun c s => ⟨checksOperandA_of_regOperands s fun _ => rfl, fun a => ⟨rfl, fun d ha hd => ?_,
    fun ha => ?_⟩⟩
  · have hsp : (s.setReg d (s.peek s.sp.toNat)).sp = s.getReg 7 := s.getReg_setReg_ne _ hd.symm
    rw [← hsp]
    refine ⟨fun hne => ?_, fun htop => ?_⟩
    · refine ⟨_, execPop_eq s ha hne, ?_, State.toNat_incremented_sp hne, fun q hqd hq => ?_, rfl, rfl,
        fun _ => rfl, rfl, rfl, rfl⟩
      · rw [hsp]
        exact (State.getReg_setSp_ne _ _ hd).trans (s.getReg_setReg_self d _)
      · exact (State.getReg_setSp_ne _ _ hq).trans (s.getReg_setReg_ne _ hqd)
    · exact ⟨_, execPop_of_sp_eq s ha htop, s.takeException_aborted _⟩
  · have hsp : (s.setReg 7 (s.peek s.sp.toNat)).sp = s.peek (s.getReg 7).toNat := s.getReg_setReg_self 7 _
    rw [← hsp]
    refine ⟨fun hne => ?_, fun htop => ?_⟩
    · refine ⟨_, execPop_eq s ha hne, State.toNat_incremented_sp hne, fun q hq => ?_, rfl, rfl,
        fun _ => rfl, rfl, rfl, rfl⟩
      exact (State.getReg_setSp_ne _ _ hq).trans (s.getReg_setReg_ne _ hq)
    · exact ⟨_, execPop_of_sp_eq s ha htop, s.takeException_aborted _⟩

end Sys2Proof.Machine
end

section
/-! PROOFS. Control transfer (`44_control_transfer.md`): the frame of a jump and the two conditional jumps on
FL (R182 to R184), then CALL (R180) and RET (R181), each with the fault that the check of the stack pointer
gives it (D6). -/

namespace Sys2Proof.Machine

/-! ## The jumps (R182 to R184) -/

theorem onlyPc_setPc (s : State) (target : Nat) : OnlyPc s (s.setPc target) target :=
  ⟨fun _ => rfl, rfl, rfl, fun _ => rfl, rfl, rfl, rfl⟩

theorem isEqual_eq_false {f : Flags} (h : f ≠ .equal) : f.isEqual = false :=
  Bool.eq_false_iff.mpr fun htrue => h ((isEqual_iff f).mp htrue)

section Jumps

variable {a : Byte} {d : RegIndex} (s : State)

theorem jumpIf_taken (ha : Names a d) :
    Answers (jumpIf true a s) fun t => OnlyPc s t (s.getReg d).toNat :=
  ⟨_, jumpIf_eq s true ha, onlyPc_setPc s _⟩

theorem jumpIf_not_taken (ha : Names a d) : Answers (jumpIf false a s) fun t => OnlyPc s t (s.pc + 2) :=
  ⟨_, jumpIf_eq s false ha, onlyPc_setPc s _⟩

variable {s}

theorem execJeq_of_equal (h : s.fl = .equal) : execJeq a s = jumpIf true a s := by
  rw [execJeq, (isEqual_iff _).mpr h]

theorem execJeq_of_ne_equal (h : s.fl ≠ .equal) : execJeq a s = jumpIf false a s := by
  rw [execJeq, isEqual_eq_false h]

theorem execJne_of_equal (h : s.fl = .equal) : execJne a s = jumpIf false a s := by
  rw [execJne, (isEqual_iff _).mpr h, Bool.not_true]

theorem execJne_of_ne_equal (h : s.fl ≠ .equal) : execJne a s = jumpIf true a s := by
  rw [execJne, isEqual_eq_false h, Bool.not_false]

end Jumps

/-- Settles O14: JMP writes `pc` and no other field. -/
theorem jmpGoesToTheRegister : Obligations.JmpGoesToTheRegister := by
  refine fun c s => ⟨checksOperandA_of_regOperands s fun _ => rfl, fun a => ⟨rfl, fun d ha => ?_⟩⟩
  exact ⟨_, execJmp_eq s ha, onlyPc_setPc s _⟩

/-- Settles O15: FL says which of the two is the taken jump; the other is the jump not taken. -/
theorem jeqAndJneTestEqualOnly : Obligations.JeqAndJneTestEqualOnly := by
  refine fun c s => ⟨checksOperandA_of_regOperands s fun _ => rfl,
    checksOperandA_of_regOperands s fun _ => rfl, fun a => ⟨rfl, rfl, fun d ha => ?_⟩⟩
  simp only [exec]
  refine ⟨fun hequal => ?_, fun hne => ?_⟩
  · rw [execJeq_of_equal hequal, execJne_of_equal hequal]
    exact ⟨jumpIf_taken s ha, jumpIf_not_taken s ha⟩
  · rw [execJeq_of_ne_equal hne, execJne_of_ne_equal hne]
    exact ⟨jumpIf_not_taken s ha, jumpIf_taken s ha⟩

/-! ## CALL and RET (R180, R181) -/

section Faults

variable {a : Byte} {d : RegIndex} (s : State)

theorem execCall_of_sp_eq (ha : Names a d) (hsp : s.sp.toNat = 0) :
    execCall a s = .next (s.takeException (.addressMem (-1))) := by
  simp only [execCall, reg_of_names ha, except_ok_bind, decrementSp_of_eq hsp, except_error_bind,
    settle_error]

/-- The pointer checked is the one RET began with: the jump, made already, does not write it. -/
theorem execRet_of_sp_eq (hsp : s.sp.toNat = 255) :
    execRet s = .next (s.takeException (.addressMem 256)) := by
  have hjumped : (s.setPc (s.peek s.sp.toNat).toNat).sp.toNat = 255 := hsp
  simp only [execRet, memRead_byte, except_ok_bind, incrementSp_of_eq hjumped, except_error_bind,
    settle_error]

end Faults

/-- The return address is not truncated where an instruction runs (`40_execution_cycle.md` R111). -/
theorem toNat_returnAddress {pc : Nat} (h : pc + 2 ≤ 255) : (trunc8 (pc + 2)).toNat = pc + 2 := by
  rw [trunc8_toNat]
  exact Nat.mod_eq_of_lt (Nat.lt_succ_of_le h)

/-- Settles O12: the target is register A of the state after the decrement, which neither the store nor the
jump changes, and the return address fits its cell. -/
theorem callStoresTheReturnAddress : Obligations.CallStoresTheReturnAddress := by
  refine fun c s hpc => ⟨checksOperandA_of_regOperands s fun _ => rfl, fun a => ⟨rfl, fun d ha => ?_⟩⟩
  refine ⟨fun hne => ?_, fun hzero => ?_⟩
  · refine ⟨_, execCall_eq s ha hne, State.toNat_decremented_sp hne, ?_, rfl, fun q hq => ?_, fun k hk => ?_,
      rfl, rfl, rfl, rfl⟩
    · exact (congrArg BitVec.toNat (State.peek_poke_self _ _ _)).trans (toNat_returnAddress hpc)
    · exact s.getReg_setSp_ne _ hq
    · exact State.peek_poke_ne _ _ hk
  · exact ⟨_, execCall_of_sp_eq s ha hzero, s.takeException_aborted _⟩

/-- Settles O13: RET writes `pc` and x[7] and no other field; the cell it reads keeps its value. -/
theorem retJumpsToTheStackTop : Obligations.RetJumpsToTheStackTop := by
  refine fun c s => ⟨rfl, fun hne => ?_, fun htop => ?_⟩
  · refine ⟨_, execRet_eq s hne, rfl, ?_, fun q hq => ?_, rfl, fun _ => rfl, rfl, rfl, rfl⟩
    · exact State.toNat_incremented_sp (s := s.setPc (s.peek s.sp.toNat).toNat) hne
    · exact State.getReg_setSp_ne _ _ hq
  · exact ⟨_, execRet_of_sp_eq s htop, s.takeException_aborted _⟩

end Sys2Proof.Machine
end

section
/-! PROOFS. Exceptions (`60_exceptions.md`): the abort for each cause (R206), and the exit status it
leaves. -/

namespace Sys2Proof.Machine

/-- The run state alone gives the exit status of a fault (`70_reset_and_hazards.md` R248). -/
theorem State.exitStatus_of_haltedFault {s : State} (hrs : s.rs = .haltedFault) : s.exitStatus = some 1 := by
  rw [exitStatus, hrs]

/-- Settles O30: one abort for every exception, read at each cause; the cause decides whether it records the
trace. -/
theorem abortRecordsTheFaultAndChangesNothingElse : Obligations.AbortRecordsTheFaultAndChangesNothingElse := by
  intro s
  have habort := s.takeException_aborted
  exact ⟨fun op => habort (.unknownOpcode op), fun r => habort (.divisionByZero r),
    habort .unsupportedOperation, fun a => habort (.addressMem a), fun k => habort (.addressReg k),
    fun e => State.exitStatus_of_haltedFault (habort e).rs⟩

end Sys2Proof.Machine
end

section
/-! PROOFS. The end of a run (`70_reset_and_hazards.md`): the exit status in each run state (R248), and what
can be observed of a run that has ended (R247). -/

namespace Sys2Proof.Machine

variable {s : State}

theorem State.exitStatus_of_haltedOk (hrs : s.rs = .haltedOk) : s.exitStatus = some 0 := by
  rw [exitStatus, hrs]

theorem State.exitStatus_of_not_ended (hrs : s.rs = .idle ∨ s.rs = .running) : s.exitStatus = none := by
  obtain hidle | hrunning := hrs
  · rw [exitStatus, hidle]
  · rw [exitStatus, hrunning]

/-- The run states fall into the three classes that the exit status tells apart. -/
theorem State.rs_cases (s : State) :
    s.rs = .haltedOk ∨ s.rs = .haltedFault ∨ s.rs = .idle ∨ s.rs = .running := by
  cases s.rs <;> decide

/-- An exit status is read back to the run states that give it: the three classes give different ones. -/
theorem State.exitStatus_iffs (s : State) :
    (s.exitStatus = some 0 ↔ s.rs = .haltedOk) ∧ (s.exitStatus = some 1 ↔ s.rs = .haltedFault) ∧
    (s.exitStatus = none ↔ s.rs = .idle ∨ s.rs = .running) := by
  obtain hok | hfault | hidle | hrunning := s.rs_cases
  · simp [exitStatus_of_haltedOk hok, hok]
  · simp [exitStatus_of_haltedFault hfault, hfault]
  · simp [exitStatus_of_not_ended (.inl hidle), hidle]
  · simp [exitStatus_of_not_ended (.inr hrunning), hrunning]

theorem State.observe_of_haltedOk (hrs : s.rs = .haltedOk) :
    s.observe = some { out := s.out, exitStatus := 0, fault := none } := by
  simp [observe, exitStatus_of_haltedOk hrs]

theorem State.observe_of_haltedFault (hrs : s.rs = .haltedFault) :
    s.observe = some { out := s.out, exitStatus := 1, fault := s.fr } := by
  simp [observe, exitStatus_of_haltedFault hrs]

/-- Settles O51: the exit status is read by the case of the run state, and FR is observed beside status 1
alone. -/
theorem exitStatusIsAFunctionOfTheRunState : Obligations.ExitStatusIsAFunctionOfTheRunState := by
  intro s
  obtain ⟨hzero, hone, hnone⟩ := s.exitStatus_iffs
  exact ⟨hzero, hone, hnone, State.observe_of_haltedOk, State.observe_of_haltedFault⟩

end Sys2Proof.Machine
end

section
/-! PROOFS. The encoding (`30_encoding.md`): the decoder reads every encoding back (R92), the encoder gives
the decoded bytes back, which bytes are opcodes (R84, R86), and the bytes that play no part (R88). -/

namespace Sys2Proof

open Laws

variable {c : Config} {op : Byte} {tail rest : List Byte} {i : Instr} {m : Mnemonic}

/-! ## Decode of encode (R92) -/

/-- The per-instruction laws `DecodesBack`, for every instruction. -/
theorem decode_encode_of_lookup : ∀ i, DecodesBack.Statement i
  | .hlt => DecodesBack.hlt
  | .ldi a imm => DecodesBack.ldi a imm
  | .prn a => DecodesBack.prn a
  | .add a b => DecodesBack.add a b
  | .mul a b => DecodesBack.mul a b
  | .mod a b => DecodesBack.mod a b
  | .and a b => DecodesBack.and a b
  | .or a b => DecodesBack.or a b
  | .xor a b => DecodesBack.xor a b
  | .shl a b => DecodesBack.shl a b
  | .shr a b => DecodesBack.shr a b
  | .not a => DecodesBack.not a
  | .push a => DecodesBack.push a
  | .pop a => DecodesBack.pop a
  | .call a => DecodesBack.call a
  | .ret => DecodesBack.ret
  | .cmp a b => DecodesBack.cmp a b
  | .jmp a => DecodesBack.jmp a
  | .jeq a => DecodesBack.jeq a
  | .jne a => DecodesBack.jne a

theorem length_encode (c : Config) (i : Instr) : (encode c i).length = i.mnemonic.length := by
  cases i <;> rfl

theorem Mnemonic.length_le_three (m : Mnemonic) : m.length ≤ 3 := by cases m <;> decide

/-- Settles O52: an injective map finds the mnemonic under its opcode, and its row reads the operands. -/
theorem decodeReadsEveryEncodingBack : Obligations.DecodeReadsEveryEncodingBack := fun c i rest hc =>
  ⟨decode_encode_of_lookup i c rest (lookup_opcode hc i.mnemonic), length_encode c i⟩

/-! ## What the decoder can do (R86, R88, R92) -/

/-- The operand bytes that a format takes from the front of the bytes after the opcode, 0 standing for
those that it has not (R81). -/
inductive TakesOperands (rest : List Byte) : Format → List Byte → Byte → Byte → Prop where
  | op0 : TakesOperands rest .op0 rest 0 0
  | op1R (a) : TakesOperands rest .op1R (a :: rest) a 0
  | op2RR (a b) : TakesOperands rest .op2RR (a :: b :: rest) a b
  | op2RI (a b) : TakesOperands rest .op2RI (a :: b :: rest) a b

/-- THE INVERSION OF `decode`: the opcode is registered, and its format took the operands. -/
theorem decode_ok (h : decode c (op :: tail) = .ok (i, rest)) :
    ∃ m a b, lookup c op = some m ∧ i = assemble m a b ∧ TakesOperands rest m.format tail a b := by
  cases hop : lookup c op with
  | none => simp [decode, hop] at h
  | some m =>
    refine ⟨m, ?_⟩
    simp only [decode, hop] at h
    split at h <;> cases h
    · next hf => exact ⟨0, 0, rfl, rfl, hf ▸ .op0⟩
    · next hf => exact ⟨_, 0, rfl, rfl, hf ▸ .op1R _⟩
    · next hf => exact ⟨_, _, rfl, rfl, hf ▸ .op2RR _ _⟩
    · next hf => exact ⟨_, _, rfl, rfl, hf ▸ .op2RI _ _⟩

/-- The encoder puts down the opcode and the bytes that the format takes. -/
theorem encode_assemble {a b : Byte} (h : TakesOperands rest m.format tail a b) :
    encode c (assemble m a b) ++ rest = c.opcodeMap m :: tail := by
  cases m <;> cases h <;> rfl

/-- Settles O53: the opcode found is the first byte, and the operands taken are those after it. -/
theorem encodeReturnsTheDecodedBytes : Obligations.EncodeReturnsTheDecodedBytes := by
  intro c bytes rest i h
  cases bytes with
  | nil => cases h
  | cons op tail =>
    obtain ⟨m, a, b, hop, rfl, htake⟩ := decode_ok h
    rw [encode_assemble htake, lookup_some hop]

/-- Settles O54: a registered byte gives an instruction, or too few bytes for one. -/
theorem unregisteredBytesAreUnknownOpcodes : Obligations.UnregisteredBytesAreUnknownOpcodes := by
  intro c op rest
  rw [← lookup_eq_none]
  cases hop : lookup c op with
  | none => simp [decode, hop]
  | some m =>
    simp only [decode, hop]
    split <;> simp

/-- Settles O56: a row of the table says which bytes its instruction keeps. -/
theorem unusedOperandBytesAreIgnored : Obligations.UnusedOperandBytesAreIgnored := by
  intro m a b a' b'
  cases m with
  | hlt | ret => exact ⟨fun _ => rfl, nofun⟩
  | prn | not | push | pop | call | jmp | jeq | jne => exact ⟨nofun, fun _ => rfl⟩
  | ldi | add | mul | mod | and | or | xor | shl | shr | cmp => exact ⟨nofun, nofun⟩

/-- An instruction decoded from three bytes is the one of its mnemonic and the other two, used or not. -/
theorem decode_three_ok {a b : Byte} (h : decode c [op, a, b] = .ok (i, rest)) :
    ∃ m, lookup c op = some m ∧ i = assemble m a b := by
  obtain ⟨m, a', b', hop, rfl, htake⟩ := decode_ok h
  obtain ⟨hop0, hop1⟩ := unusedOperandBytesAreIgnored m a' b' a b
  refine ⟨m, hop, ?_⟩
  generalize hf : m.format = f at htake hop0 hop1
  cases htake with
  | op0 => exact hop0 rfl
  | op1R => exact hop1 rfl
  | op2RR | op2RI => rfl

/-- Settles O38: the fetch assembles from the three bytes what the decoder reads. -/
theorem stepRunsTheDecodedInstruction : Obligations.StepRunsTheDecodedInstruction := by
  intro s i rest hs hpc hdecode
  obtain ⟨m, hop, rfl⟩ := decode_three_ok hdecode
  exact Machine.stepWith_of_fetch_ok hs (Machine.fetch_of_prefetch_inside hop hpc)

/-! ## The opcode bytes (R84) -/

theorem lookup_isSome : (lookup c op).isSome = true ↔ ∃ m, c.opcodeMap m = op := by
  rw [Option.isSome_iff_ne_none, ne_eq, lookup_eq_none]
  simp

/-- The opcodes as numbers, one for each mnemonic. -/
def opcodeNumbers (c : Config) : List Nat := Mnemonic.all.map fun m => (c.opcodeMap m).toNat

theorem nodup_opcodeNumbers (hc : c.OpcodeInjective) : (opcodeNumbers c).Nodup :=
  List.Nodup.map (fun m n h => hc m n (BitVec.eq_of_toNat_eq h)) (by decide)

theorem mem_opcodeNumbers {n : Nat} :
    n ∈ opcodeNumbers c ↔ n < 256 ∧ (lookup c (BitVec.ofNat 8 n)).isSome = true := by
  simp only [opcodeNumbers, List.mem_map, Mnemonic.mem_all, true_and, lookup_isSome]
  constructor
  · rintro ⟨m, rfl⟩
    exact ⟨(c.opcodeMap m).isLt, m, by simp⟩
  · rintro ⟨hn, m, hm⟩
    exact ⟨m, by rw [hm, BitVec.toNat_ofNat, Nat.mod_eq_of_lt hn]⟩

/-- Every injective map registers as many bytes as there are mnemonics. -/
theorem length_registered (hc : c.OpcodeInjective) :
    ((List.range 256).filter fun n => (lookup c (BitVec.ofNat 8 n)).isSome).length = 20 := by
  have hperm := (List.perm_ext_iff_of_nodup (List.nodup_range.filter _) (nodup_opcodeNumbers hc)).mpr
    fun n => by rw [List.mem_filter, List.mem_range, mem_opcodeNumbers]
  rw [hperm.length_eq, opcodeNumbers, List.length_map]
  rfl

/-- Settles O55: the default map is injective, which fixes the count. -/
theorem defaultMapRegistersTwentyBytes : Obligations.DefaultMapRegistersTwentyBytes :=
  ⟨engine_injective, length_registered engine_injective⟩

/-- Settles O57: ten words, each decoded. -/
theorem sampleWordsDecode : Obligations.SampleWordsDecode := by
  unfold Obligations.SampleWordsDecode
  decide

end Sys2Proof
end

section
/-! PROOFS. The invariant of the machine (`10_state.md` R26, R29, R30; `60_exceptions.md` R206, R207): how a
step from RUNNING ends, where it leaves `pc`, that it keeps the invariant, and so that every run of an image
does. The statements about faults, about `pc` and about HLT over a whole step are read off the same
inversion. -/

namespace Sys2Proof.Machine

variable {c : Config} {s t : State} {i : Instr} {e : Exc}

/-! ## The run state after a step (`40_execution_cycle.md` R110, R113) -/

/-- Settles O35: the step looks at RS first. -/
theorem noStepOutsideRunning : Obligations.NoStepOutsideRunning := by
  intro c s hs
  cases hrs : s.rs with
  | running => exact absurd hrs hs
  | idle | haltedOk | haltedFault => simp only [stepWith, hrs]

/-- An instruction that completed from RUNNING did not fault. -/
theorem Effect.rs_ne_haltedFault (h : Effect s i t) (hs : s.rs = .running) : t.rs ≠ .haltedFault := by
  obtain ⟨-, hrs⟩ := h.run
  rw [hrs, hs]
  split <;> decide

/-- A completed instruction ended the run exactly when it is HLT. -/
theorem Effect.rs_eq_haltedOk_iff (h : Effect s i t) (hs : s.rs = .running) :
    t.rs = .haltedOk ↔ i = .hlt := by
  obtain ⟨-, hrs⟩ := h.run
  rw [hrs, hs]
  split <;> simp [*]

theorem stepWith_running_rs (hs : s.rs = .running) (h : stepWith c s = .next t) :
    t.rs = .running ∨ t.rs = .haltedOk ∨ t.rs = .haltedFault := by
  rcases stepWith_ends hs h with ⟨i, -, heff⟩ | ⟨e, -, rfl⟩
  · obtain ⟨-, hrs⟩ := heff.run
    rw [hrs, hs]
    split <;> simp
  · exact .inr (.inr rfl)

/-- Settles O36: every step answers, and an answer is one state. -/
theorem runningStepYieldsOneNextState : Obligations.RunningStepYieldsOneNextState := by
  intro c s hs
  obtain ⟨t, ht⟩ := stepWith_next c s
  refine ⟨t, ht, stepWith_running_rs hs ht, fun u hu => ?_⟩
  rw [ht] at hu
  cases hu
  rfl

/-- Settles O39: a completed HLT is the only end that leaves HALTED_OK, and an injective map finds HLT under
its own opcode alone. -/
theorem onlyHltEndsTheRunWell : Obligations.OnlyHltEndsTheRunWell := by
  refine fun c s t hc hs ht => ⟨fun hok => ?_, fun ⟨hpc, hop⟩ => ?_⟩
  · rcases stepWith_ends hs ht with ⟨i, hfetch, heff⟩ | ⟨e, -, rfl⟩
    · obtain ⟨m, hm, hpc, rfl⟩ := fetch_ok hfetch
      have hi := (heff.rs_eq_haltedOk_iff hs).mp hok
      have hmnemonic : m = .hlt := (assemble_mnemonic m _ _).symm.trans (congrArg Instr.mnemonic hi)
      exact ⟨hpc, hmnemonic ▸ hm.symm⟩
    · cases hok
  · have hlookup : lookup c (s.peek s.pc) = some .hlt := hop ▸ lookup_opcode hc .hlt
    rw [stepWith_of_fetch_ok hs (fetch_of_prefetch_inside hlookup hpc)] at ht
    cases ht
    rfl

/-! ## Faults over a whole step (`60_exceptions.md` R201, R203, R206 to R208) -/

/-- A step that ends in HALTED_FAULT took an exception where it began, and did nothing else. -/
theorem stepWith_haltedFault (hs : s.rs = .running) (h : stepWith c s = .next t)
    (ht : t.rs = .haltedFault) : ∃ e : Exc, e.cause ≠ .unsupportedOperation ∧ t = s.takeException e := by
  rcases stepWith_ends hs h with ⟨i, -, heff⟩ | hexc
  · exact absurd ht (heff.rs_ne_haltedFault hs)
  · exact hexc

/-- Settles O31: the abort is all that a faulting step does. -/
theorem everyFaultIsPrecise : Obligations.EveryFaultIsPrecise := by
  intro c s t hs h ht
  obtain ⟨e, -, rfl⟩ := stepWith_haltedFault hs h ht
  exact ⟨⟨_, s.pc, _, _⟩, s.takeException_aborted e, State.exitStatus_of_haltedFault rfl⟩

theorem State.traceByte_eq (s : State) (a : Nat) :
    s.traceByte a = if a ≤ 255 then some (s.peek a) else none := by
  simp only [traceByte, Config.memSize, Nat.lt_succ_iff]

/-- Settles O32: the fetch fails at its second part, and the record shows the state as it stood. -/
theorem unknownOpcodeRecordsTheTrace : Obligations.UnknownOpcodeRecordsTheTrace := by
  intro c s hs hpc hop
  have hfetch := fetch_of_unregistered (Nat.lt_succ_of_le hpc) (lookup_eq_none.mpr hop)
  obtain ⟨t, ht, habort⟩ := stepWith_aborts_of_fetch_error hs hfetch
  exact ⟨t, ht, s.trace, habort, rfl, rfl, s.traceByte_eq _, s.traceByte_eq _, fun _ => rfl⟩

/-- The ALU's default arm answers the ten names that are no operation, and no other arm raises its
exception. -/
theorem aluApply_unsupported_iff (m : Mnemonic) (d r : RegIndex) (s : State) :
    aluApply m d r s = .error .unsupportedOperation ↔
      m ∈ [Mnemonic.hlt, .ldi, .prn, .push, .pop, .call, .ret, .jmp, .jeq, .jne] := by
  cases m with
  | mod =>
    by_cases hzero : (s.getReg r).toNat = 0
    · simp [aluApply_mod_of_eq d hzero]
    · simp [aluApply_mod_of_ne d hzero]
  | _ => simp [aluApply]

/-- Settles O33: the fetch and the instructions raise other causes only. -/
theorem unsupportedOperationIsUnreachable : Obligations.UnsupportedOperationIsUnreachable := by
  refine ⟨aluApply_unsupported_iff, fun c s t hs h ht f hf => ?_⟩
  obtain ⟨e, he, rfl⟩ := stepWith_haltedFault hs h ht
  cases hf
  exact he

/-- A run that has ended, or has not begun, stays where it is. -/
theorem run_of_not_running (hs : s.rs ≠ .running) (k : Nat) :
    Host.Core.run Sys2Proof.core k s = .next s := by
  induction k with
  | zero => rfl
  | succ k ih =>
    have hstep : Sys2Proof.core.step s = .next s := noStepOutsideRunning Config.engine s hs
    rw [run_succ_of_next k hstep, ih]

/-- Settles O34: HALTED_FAULT is neither RUNNING, for the step, nor IDLE, for `load` and `start`. -/
theorem abortIsTerminalUntilReset : Obligations.AbortIsTerminalUntilReset := by
  intro s hs
  have hrunning : s.rs ≠ .running := by simp [hs]
  have hidle : s.rs ≠ .idle := by simp [hs]
  exact ⟨run_of_not_running hrunning, fun bytes => hostLoad_outside_idle bytes hidle, if_pos hidle,
    fun c => ⟨State.resetWith c, rfl, rfl, rfl⟩⟩

/-! ## Where a step leaves `pc` (`10_state.md` R26) -/

/-- A completed instruction moved `pc` past itself, or to the value of a byte. -/
theorem Effect.pc_cases (h : Effect s i t) :
    t.pc = s.pc + i.mnemonic.length ∨ ∃ v : Byte, t.pc = v.toNat := by
  cases h with
  | hlt | ldi | prn | not | push | pop | cmp => exact .inl rfl
  | add | mul | mod | and | or | xor | shl | shr => exact .inl rfl
  | call | ret | jmp => exact .inr ⟨_, rfl⟩
  | jeq | jne =>
    split
    · exact .inr ⟨_, rfl⟩
    · exact .inl rfl

/-- A completed step leaves `pc` within the memory, or just past a 3-byte instruction at 253. -/
theorem pc_after_completed_step (hfetch : fetch c s = .ok i) (heff : Effect s i t) :
    t.pc ≤ 255 ∨ t.pc = 256 ∧ s.pc = 253 ∧ ∃ m, c.opcodeMap m = s.peek s.pc ∧ m.length = 3 := by
  obtain ⟨m, hm, hpc, rfl⟩ := fetch_ok hfetch
  have hlen := m.length_le_three
  rcases heff.pc_cases with hpast | ⟨v, hv⟩
  · rw [assemble_mnemonic] at hpast
    by_cases h : s.pc + m.length = 256
    · exact .inr ⟨hpast.trans h, by omega, m, hm, by omega⟩
    · exact .inl (by omega)
  · have := v.isLt
    exact .inl (by omega)

/-- Settles O40: a step that faults leaves `pc` alone, and one that completes began at 253 or below. -/
theorem pcReaches256OnlyFrom253 : Obligations.PcReaches256OnlyFrom253 := by
  refine fun c s hs => ⟨fun t ht hpc => ?_, fun hpc => ?_⟩
  · rcases stepWith_ends hs ht with ⟨i, hfetch, heff⟩ | ⟨e, -, rfl⟩
    · rcases pc_after_completed_step hfetch heff with hle | ⟨htop, hlast⟩
      · exact ⟨by omega, fun h => by omega⟩
      · exact ⟨htop.le, fun _ => hlast⟩
    · rw [State.takeException_pc]
      exact ⟨by omega, fun h => by omega⟩
  · exact stepWith_aborts_of_fetch_error hs (fetch_of_pc_ge hpc)

/-! ## The invariant -/

/-- Without a fault recorded the invariant speaks of the memory and of `pc` alone. -/
theorem Inv.of_no_fault (hmem : Memory.wf s.mem = true) (hpc : s.pc ≤ 256) (hrs : s.rs ≠ .haltedFault)
    (hfr : s.fr = none) : Inv s where
  memory := hmem
  pc_range := hpc
  fault_iff := by simp [hrs, hfr]
  fault_addr f hf := by simp [hfr] at hf
  fault_cause f hf := by simp [hfr] at hf
  fault_trace f hf := by simp [hfr] at hf

/-- The abort keeps the invariant, since it writes the record that the invariant asks for. -/
theorem Inv.takeException (h : Inv s) (he : e.cause ≠ .unsupportedOperation) :
    Inv (s.takeException e) where
  memory := h.memory
  pc_range := h.pc_range
  fault_iff := by simp
  fault_addr f hf := by cases hf; rfl
  fault_cause f hf := by cases hf; exact he
  fault_trace f hf := by cases hf; rfl

/-- A RUNNING state that meets the invariant has no fault recorded. -/
theorem Inv.fr_of_running (h : Inv s) (hs : s.rs = .running) : s.fr = none := by
  simpa [hs] using h.fault_iff

/-- Settles O43: a step completes an instruction, which records no fault, or aborts; outside RUNNING it
changes nothing. -/
theorem everyStepKeepsTheInvariant : Obligations.EveryStepKeepsTheInvariant := by
  intro c s t hinv ht
  by_cases hs : s.rs = .running
  · rcases stepWith_ends hs ht with ⟨i, hfetch, heff⟩ | ⟨e, he, rfl⟩
    · have hpc : t.pc ≤ 256 := by
        rcases pc_after_completed_step hfetch heff with hle | ⟨htop, -⟩ <;> omega
      obtain ⟨hfr, -⟩ := heff.run
      exact .of_no_fault (heff.keeps_wf hinv.memory) hpc (heff.rs_ne_haltedFault hs)
        (hfr.trans (hinv.fr_of_running hs))
    · exact hinv.takeException he
  · rw [noStepOutsideRunning c s hs] at ht
    cases ht
    exact hinv

/-- Settles O42: after reset no cell is listed and no fault recorded. -/
theorem resetMeetsTheInvariant : Obligations.ResetMeetsTheInvariant :=
  .of_no_fault rfl (Nat.zero_le 256) nofun rfl

/-- No step leads to IDLE. -/
theorem stepWith_rs_ne_idle (hs : s.rs ≠ .idle) (h : stepWith c s = .next t) : t.rs ≠ .idle := by
  by_cases hrunning : s.rs = .running
  · rcases stepWith_running_rs hrunning h with hrs | hrs | hrs <;> simp [hrs]
  · rw [noStepOutsideRunning c s hrunning] at h
    cases h
    exact hs

/-- THE INDUCTION OVER A RUN: it answers after any number of steps, and keeps the invariant. -/
theorem run_keeps_inv (hinv : Inv s) (hs : s.rs ≠ .idle) (k : Nat) :
    ∃ t, Host.Core.run Sys2Proof.core k s = .next t ∧ Inv t ∧ t.rs ≠ .idle := by
  induction k generalizing s with
  | zero => exact ⟨s, rfl, hinv, hs⟩
  | succ k ih =>
    obtain ⟨t, ht⟩ := stepWith_next Config.engine s
    have hstep : Sys2Proof.core.step s = .next t := ht
    rw [run_succ_of_next k hstep]
    exact ih (everyStepKeepsTheInvariant _ s t hinv ht) (stepWith_rs_ne_idle hs ht)

/-- Settles O44: the launched state meets the invariant, and the run keeps it. -/
theorem everyRunOfEveryImageKeepsTheInvariant : Obligations.EveryRunOfEveryImageKeepsTheInvariant := by
  intro image before k hlen
  refine ⟨_, launch_eq Config.engine before hlen, run_keeps_inv (.of_no_fault ?_ ?_ ?_ rfl) ?_ k⟩
  · exact Memory.wf_writeAll image (Memory.wf_ofInit _) 0 (by omega)
  · exact Nat.zero_le 256
  · simp
  · simp

end Sys2Proof.Machine
end

section
/-! PROOFS. When an instruction completes (`60_exceptions.md` R204, R209): a well-formed instruction whose own
condition holds completes with its effect, and an effect shows both, so that every other instruction faults.
Then the data side of `20_memory.md` R52: the frame of the memory, and noninterference for states that are the
same but for one byte. -/

namespace Sys2Proof.Machine

variable {s t : State} {i : Instr} {a b : Byte} {d r : RegIndex}

/-! ## Well-formed operands (`30_encoding.md` R87) -/

theorem namesRegister_iff {k : Byte} : namesRegister k = true ↔ ∃ r, Names k r := by
  rw [namesRegister, decide_eq_true_eq]
  exact ⟨fun h => ⟨⟨k.toNat, h⟩, rfl⟩, fun ⟨r, hr⟩ => hr ▸ r.isLt⟩

theorem wellFormed_iff : i.wellFormed = true ↔ ∀ k ∈ i.regOperands, ∃ r, Names k r := by
  simp only [Instr.wellFormed, List.all_eq_true, namesRegister_iff]

theorem names_of_wellFormed_one (h : i.wellFormed = true) (hi : i.regOperands = [a]) :
    ∃ d, Names a d := wellFormed_iff.mp h a (by simp [hi])

theorem names_of_wellFormed_two (h : i.wellFormed = true) (hi : i.regOperands = [a, b]) :
    ∃ d r, Names a d ∧ Names b r := by
  obtain ⟨d, ha⟩ := wellFormed_iff.mp h a (by simp [hi])
  obtain ⟨r, hb⟩ := wellFormed_iff.mp h b (by simp [hi])
  exact ⟨d, r, ha, hb⟩

/-! ## The own condition of MOD and of POP, at the registers named -/

theorem ownConditionHolds_mod_iff (hb : Names b r) :
    OwnConditionHolds (.mod a b) s ↔ (s.getReg r).toNat ≠ 0 :=
  ⟨fun h => h r hb, fun h _ hq => names_unique hb hq ▸ h⟩

/-- What POP checks is the pointer that stands after register A is written. -/
theorem ownConditionHolds_pop_iff (ha : Names a d) :
    OwnConditionHolds (.pop a) s ↔ (s.setReg d (s.peek s.sp.toNat)).sp.toNat ≠ 255 := by
  have hsp : a.toNat = Config.spIndex.val ↔ d = Config.spIndex := by
    rw [show a.toNat = d.val from ha, Fin.ext_iff]
  simp only [OwnConditionHolds, hsp, State.sp_setReg]
  split <;> rfl

/-! ## Completion (`60_exceptions.md` R204, R209) -/

/-- A two-register instruction whose ALU operation succeeds completes. -/
theorem completes_two (operation : Mnemonic) {f : RegIndex → RegIndex → State}
    (hwf : i.wellFormed = true) (hi : i.regOperands = [a, b]) (hexec : exec i s = aluTwo operation a b s)
    (hop : ∀ d r, Names b r → aluApply operation d r s = .ok (f d r))
    (heff : ∀ d r, Names a d → Names b r → Effect s i ((f d r).advance operation.length)) :
    ∃ t, exec i s = .next t ∧ Effect s i t := by
  obtain ⟨d, r, ha, hb⟩ := names_of_wellFormed_two hwf hi
  exact ⟨_, hexec.trans (aluTwo_of_aluApply_ok operation ha hb (hop d r hb)), heff d r ha hb⟩

/-- A one-register instruction that completes on every register that its operand can name. -/
theorem completes_one {f : RegIndex → State} (hwf : i.wellFormed = true) (hi : i.regOperands = [a])
    (hexec : ∀ d, Names a d → exec i s = .next (f d)) (heff : ∀ d, Names a d → Effect s i (f d)) :
    ∃ t, exec i s = .next t ∧ Effect s i t := by
  obtain ⟨d, ha⟩ := names_of_wellFormed_one hwf hi
  exact ⟨_, hexec d ha, heff d ha⟩

/-- An instruction whose operands and own condition are in order completes with its effect. -/
theorem exec_completes (hwf : i.wellFormed = true) (hown : OwnConditionHolds i s) :
    ∃ t, exec i s = .next t ∧ Effect s i t := by
  cases i with
  | hlt => exact ⟨_, execHlt_eq s, .hlt⟩
  | ldi a imm => exact completes_one hwf rfl (fun _ => execLdi_eq s imm) fun _ => .ldi
  | prn a => exact completes_one hwf rfl (fun _ => execPrn_eq s) fun _ => .prn
  | add a b => exact completes_two .add hwf rfl rfl (fun _ _ _ => rfl) fun _ _ => .add
  | mul a b => exact completes_two .mul hwf rfl rfl (fun _ _ _ => rfl) fun _ _ => .mul
  | mod a b =>
    have hne : ∀ r, Names b r → (s.getReg r).toNat ≠ 0 := hown
    exact completes_two .mod hwf rfl rfl (fun d r hb => aluApply_mod_of_ne d (hne r hb))
      fun d r ha hb => .mod ha hb (hne r hb)
  | and a b => exact completes_two .and hwf rfl rfl (fun _ _ _ => rfl) fun _ _ => .and
  | or a b => exact completes_two .or hwf rfl rfl (fun _ _ _ => rfl) fun _ _ => .or
  | xor a b => exact completes_two .xor hwf rfl rfl (fun _ _ _ => rfl) fun _ _ => .xor
  | shl a b => exact completes_two .shl hwf rfl rfl (fun _ _ _ => rfl) fun _ _ => .shl
  | shr a b => exact completes_two .shr hwf rfl rfl (fun _ _ _ => rfl) fun _ _ => .shr
  | not a => exact completes_one hwf rfl (fun _ => execNot_eq s) fun _ => .not
  | push a =>
    exact completes_one hwf rfl (fun _ ha => execPush_eq s ha hown) fun _ ha => .push ha hown
  | pop a =>
    have hne : ∀ d, Names a d → (s.setReg d (s.peek s.sp.toNat)).sp.toNat ≠ 255 := fun _ ha =>
      (ownConditionHolds_pop_iff ha).mp hown
    exact completes_one hwf rfl (fun d ha => execPop_eq s ha (hne d ha)) fun d ha => .pop ha (hne d ha)
  | call a =>
    exact completes_one hwf rfl (fun _ ha => execCall_eq s ha hown) fun _ ha => .call ha hown
  | ret => exact ⟨_, execRet_eq s hown, .ret hown⟩
  | cmp a b => exact completes_two .cmp hwf rfl rfl (fun _ _ _ => rfl) fun _ _ => .cmp
  | jmp a => exact completes_one hwf rfl (fun _ => execJmp_eq s) fun _ => .jmp
  | jeq a =>
    refine completes_one hwf rfl (fun _ => jumpIf_eq s s.fl.isEqual) fun d ha => ?_
    simpa only [isEqual_iff] using Effect.jeq (s := s) ha
  | jne a =>
    refine completes_one hwf rfl (fun _ => jumpIf_eq s !s.fl.isEqual) fun d ha => ?_
    simpa only [Bool.not_eq_true', ← Bool.not_eq_true, isEqual_iff] using Effect.jne (s := s) ha

theorem Effect.wellFormed (h : Effect s i t) : i.wellFormed = true := by
  refine wellFormed_iff.mpr fun k hk => ?_
  cases h with
  | hlt | ret => cases hk
  | ldi ha | prn ha | not ha | push ha | pop ha | call ha | jmp ha | jeq ha | jne ha =>
    cases List.mem_singleton.mp hk
    exact ⟨_, ha⟩
  | add ha hb | mul ha hb | mod ha hb | and ha hb | or ha hb | xor ha hb | shl ha hb | shr ha hb
  | cmp ha hb =>
    rcases List.mem_pair.mp hk with rfl | rfl
    · exact ⟨_, ha⟩
    · exact ⟨_, hb⟩

theorem Effect.ownConditionHolds (h : Effect s i t) : OwnConditionHolds i s := by
  cases h with
  | mod _ hb hne => exact (ownConditionHolds_mod_iff hb).mpr hne
  | push _ hne | call _ hne | ret hne => exact hne
  | pop ha hne => exact (ownConditionHolds_pop_iff ha).mpr hne
  | _ => trivial

/-- Settles O19: an instruction that answers completed or faulted, and it completed exactly where operands and
condition are in order. -/
theorem instructionFaultsExactlyWhenTheSpecSays : Obligations.InstructionFaultsExactlyWhenTheSpecSays := by
  refine fun i s hs => ⟨fun ⟨hwf, hown⟩ => ?_, fun hnot => ?_⟩
  · obtain ⟨t, ht, heff⟩ := exec_completes hwf hown
    obtain ⟨hfr, hrs⟩ := heff.run
    exact ⟨t, ht, hfr, hs ▸ hrs⟩
  · obtain ⟨t, ht⟩ := exec_next s i
    refine ⟨t, ht, ?_⟩
    rcases exec_ends s ht with heff | ⟨e, -, rfl⟩
    · exact absurd ⟨heff.wellFormed, heff.ownConditionHolds⟩ hnot
    · rfl

/-! ## Memory (`20_memory.md` R52) -/

/-- An instruction that completed wrote no byte but the one it stores. -/
theorem Effect.peek_of_ne_storeAddress (h : Effect s i t) {k : Nat} (hk : storeAddress i s ≠ some k) :
    t.peek k = s.peek k := by
  cases h with
  | push | call => exact State.peek_poke_ne _ _ fun he => hk (congrArg some he.symm)
  | jeq | jne => split <;> rfl
  | _ => rfl

theorem exec_peek_of_ne_storeAddress (h : exec i s = .next t) {k : Nat} (hk : storeAddress i s ≠ some k) :
    t.peek k = s.peek k := by
  rcases exec_ends s h with heff | ⟨e, -, rfl⟩
  · exact heff.peek_of_ne_storeAddress hk
  · rfl

/-- `t` is `s` but for the byte at `slot`. -/
def SameButByte (slot : Nat) (s t : State) : Prop :=
  KeepsRegs s t ∧ t.pc = s.pc ∧ t.fl = s.fl ∧ KeepsMemoryBut s t slot ∧ t.out = s.out ∧ KeepsRun s t

theorem sameButByte_poke (s : State) (slot : Nat) (v : Byte) : SameButByte slot s (s.poke slot v) :=
  ⟨fun _ => rfl, rfl, rfl, fun _ hk => s.peek_poke_ne v hk, rfl, rfl, rfl⟩

theorem keptByOps_sameButByte (slot : Nat) : KeptByOps (SameButByte slot) where
  pc_eq := fun ⟨_, hpc, _⟩ => hpc
  setReg d v := fun ⟨hregs, hrest⟩ =>
    ⟨fun q => by rw [State.getReg_setReg, State.getReg_setReg, hregs q], hrest⟩
  setPc _ := fun ⟨hregs, _, hrest⟩ => ⟨hregs, rfl, hrest⟩
  setFl _ := fun ⟨hregs, hpc, _, hrest⟩ => ⟨hregs, hpc, rfl, hrest⟩
  setRs _ := fun ⟨hregs, hpc, hfl, hmem, hout, _, hfr⟩ => ⟨hregs, hpc, hfl, hmem, hout, rfl, hfr⟩
  emit v := fun ⟨hregs, hpc, hfl, hmem, hout, hrun⟩ =>
    ⟨hregs, hpc, hfl, hmem, congrArg (· ++ [v]) hout, hrun⟩
  poke a v := fun ⟨hregs, hpc, hfl, hmem, hrest⟩ =>
    ⟨hregs, hpc, hfl, fun k hk => by rw [State.peek_poke, State.peek_poke, hmem k hk], hrest⟩
  abort e he := fun ⟨hregs, hpc, hfl, hmem, hout, _⟩ =>
    ⟨hregs, hpc, hfl, hmem, hout, rfl, by simp [he, hpc]⟩

/-- Settles O21: the writes by the inversion of `exec`, the reads by noninterference for states that are the
same but for one byte. -/
theorem memoryReachedByStackInstructionsOnly : Obligations.MemoryReachedByStackInstructionsOnly := by
  refine fun i s t ht => ⟨fun k hk => exec_peek_of_ne_storeAddress ht hk, fun slot v u hslot hu => ?_⟩
  have hin : SameInputs i s (s.poke slot v) :=
    { regs := fun _ _ => rfl
      flag := fun _ => Iff.rfl
      load := fun hi => s.peek_poke_ne v (hslot hi).symm }
  exact exec_related (keptByOps_sameButByte slot) (sameButByte_poke s slot v) hin ht hu

end Sys2Proof.Machine
end

section
/-! PROOFS. Two instructions after one another (`95_test_vectors.md` S5 to S7, P4): each statement chains the
rules of the two instructions, the second from the state that the first is known to leave. -/

namespace Sys2Proof.Machine

/-! ## The stack round trips (`43_stack.md` R172, `44_control_transfer.md` R180) -/

/-- A value one below a byte that is not 0 is not 255. -/
theorem toNat_ne_255_of_pred {v w : Byte} (h : v.toNat = w.toNat - 1) (hw : w.toNat ≠ 0) :
    v.toNat ≠ 255 := by
  have := w.isLt
  omega

/-- The increment gives back what the decrement took. -/
theorem eq_of_pred_succ {v w u : Byte} (hv : v.toNat = w.toNat - 1) (hw : w.toNat ≠ 0)
    (hu : u.toNat = v.toNat + 1) : u = w := by
  refine BitVec.eq_of_toNat_eq ?_
  omega

/-- Settles O25: the cell written by PUSH is the one that POP reads, since the write to register `d` leaves
x[7] alone. -/
theorem pushThenPopRestores : Obligations.PushThenPopRestores := by
  intro s a d ha hd hne
  obtain ⟨-, hpush⟩ := pushStoresBelowTheStackPointer Config.engine s
  obtain ⟨-, hpush⟩ := hpush a
  obtain ⟨s1, hs1, hsp, hcell, hregs, -, -, -, -, hrs, hfr⟩ := (hpush d ha).1 hne
  refine ⟨s1, hs1, fun v => ?_⟩
  have hsp' : (s1.setReg d v).getReg 7 = s1.getReg 7 := s1.getReg_setReg_ne v hd.symm
  obtain ⟨-, hpop⟩ := popLoadsThenIncrements Config.engine (s1.setReg d v)
  obtain ⟨-, hpop, -⟩ := hpop a
  obtain ⟨hpop, -⟩ := hpop d ha hd
  rw [hsp'] at hpop
  refine (hpop (toNat_ne_255_of_pred hsp hne)).imp ?_
  rintro s2 ⟨hload, hsp2, -, -, -, -, -, hrs2, hfr2⟩
  refine ⟨?_, eq_of_pred_succ hsp hne hsp2, hrs2.trans hrs, hfr2.trans hfr⟩
  calc
    s2.getReg d = s1.peek ((s.getReg 7).toNat - 1) := by rw [hload, hsp, State.setReg_peek]
    _ = s.getReg d := by rw [hcell, hregs d hd]

/-- Settles O26: PUSH R7 stores the decremented pointer in the cell it points to, so POP R7 loads the pointer
itself and increments it. -/
theorem pushThenPopOfTheStackPointerRestores : Obligations.PushThenPopOfTheStackPointerRestores := by
  intro s hne
  obtain ⟨-, hpush⟩ := pushStoresBelowTheStackPointer Config.engine s
  obtain ⟨-, hpush⟩ := hpush 7
  obtain ⟨s1, hs1, hsp, hcell, -, -, -, -, -, hrs, hfr⟩ := (hpush 7 rfl).1 hne
  refine ⟨s1, hs1, ?_⟩
  obtain ⟨-, hpop⟩ := popLoadsThenIncrements Config.engine s1
  obtain ⟨-, -, hpop⟩ := hpop 7
  obtain ⟨hpop, -⟩ := hpop rfl
  rw [hsp, hcell] at hpop
  refine (hpop (toNat_ne_255_of_pred hsp hne)).imp ?_
  rintro s2 ⟨hsp2, honly⟩
  exact ⟨eq_of_pred_succ hsp hne hsp2, honly.run.1.trans hrs, honly.run.2.trans hfr⟩

/-- Settles O27: RET reads the return address that CALL stored, and gives back the pointer that CALL
decremented. -/
theorem callThenRetResumesAfterTheCall : Obligations.CallThenRetResumesAfterTheCall := by
  intro s a d ha hpc hne
  obtain ⟨-, hcall⟩ := callStoresTheReturnAddress Config.engine s hpc
  obtain ⟨-, hcall⟩ := hcall a
  obtain ⟨s1, hs1, hsp, hcell, -⟩ := (hcall d ha).1 hne
  refine ⟨s1, hs1, fun s2 hsp2 hcell2 => ?_⟩
  obtain ⟨-, hret, -⟩ := retJumpsToTheStackTop Config.engine s2
  rw [hsp2, hcell2, hsp, hcell, ← hsp] at hret
  refine (hret (toNat_ne_255_of_pred hsp hne)).imp ?_
  rintro s3 ⟨hpc3, hsp3, -⟩
  exact ⟨hpc3, eq_of_pred_succ hsp hne hsp3⟩

/-! ## Comparison and jump (`42_alu.md` R151) -/

/-- Settles O28: CMP leaves EQUAL exactly for equal values and keeps the target register, and the jumps test
EQUAL alone. -/
theorem cmpThenJumpTestsEquality : Obligations.CmpThenJumpTestsEquality := by
  intro s a b k d r target ha hb hk
  obtain ⟨-, hcmp⟩ := cmpSetsFlagsByUnsignedOrder Config.engine s
  obtain ⟨-, hcmp⟩ := hcmp a b
  obtain ⟨s1, hs1, hequal, -, -, -, hregs, -⟩ := hcmp d r ha hb
  refine ⟨s1, hs1, ?_⟩
  rw [BitVec.toNat_inj] at hequal
  obtain ⟨-, -, hjump⟩ := jeqAndJneTestEqualOnly Config.engine s1
  obtain ⟨-, -, hjump⟩ := hjump k
  obtain ⟨htaken, hnot⟩ := hjump target hk
  rw [hregs target] at htaken hnot
  by_cases h : s.getReg d = s.getReg r
  · obtain ⟨hjeq, hjne⟩ := htaken (hequal.mpr h)
    simp only [if_pos h]
    exact ⟨hjeq.imp fun _ honly => honly.pc, hjne.imp fun _ honly => honly.pc⟩
  · obtain ⟨hjeq, hjne⟩ := hnot (mt hequal.mp h)
    simp only [if_neg h]
    exact ⟨hjeq.imp fun _ honly => honly.pc, hjne.imp fun _ honly => honly.pc⟩

/-! ## An operand byte that is overwritten before it is fetched (`20_memory.md` R61) -/

/-- A step at a mnemonic's opcode runs that mnemonic with the two bytes after it. -/
theorem stepWith_of_opcode {c : Config} {s : State} (m : Mnemonic) (hc : c.OpcodeInjective)
    (hs : s.rs = .running) (hpc : s.pc ≤ 253) (hop : s.peek s.pc = c.opcodeMap m) :
    stepWith c s = exec (assemble m (s.peek (s.pc + 1)) (s.peek (s.pc + 2))) s := by
  obtain ⟨-, -, hrun⟩ := stepFetchesInOrder c s hc hs
  exact (hrun m hop.symm).2 hpc

/-- Settles O41: PUSH writes the cell at `pc` + 3, which is the operand of the PRN at `pc` + 2. -/
theorem pushedOperandByteIsFetched : Obligations.PushedOperandByteIsFetched := by
  intro c s d q hc hs hpc hpush hd hprn hsp hd7 hq hq7
  rw [stepWith_of_opcode .push hc hs (by omega) hpush]
  obtain ⟨-, hrule⟩ := pushStoresBelowTheStackPointer c s
  obtain ⟨-, hrule⟩ := hrule (s.peek (s.pc + 1))
  obtain ⟨s1, hs1, -, hcell, hregs, hmem, hpc1, -, hout1, hrs1, -⟩ := (hrule d hd).1 (by omega)
  refine ⟨s1, hs1, ?_⟩
  have hslot : (s.getReg 7).toNat - 1 = s1.pc + 1 := by omega
  rw [hslot] at hcell hmem
  have hop : s1.peek s1.pc = c.opcodeMap .prn := by rw [hmem _ (by omega), hpc1, hprn]
  have hnames : Names (s1.peek (s1.pc + 1)) q := by rwa [hcell, hregs d hd7]
  show Answers (stepWith c s1) _
  rw [stepWith_of_opcode .prn hc (hrs1.trans hs) (by omega) hop]
  obtain ⟨-, hrule⟩ := prnAppendsOneValueToOut c s1
  obtain ⟨-, hrule⟩ := hrule (s1.peek (s1.pc + 1))
  refine (hrule q hnames).imp ?_
  rintro s2 ⟨hout2, -, -, hpc2, -, -, hrs2, -⟩
  refine ⟨?_, by omega, hrs2.trans (hrs1.trans hs)⟩
  rw [hout2, hout1, hregs q hq7]

end Sys2Proof.Machine
end

section
/-! PROOFS. The memory and the host's calls: the checked accesses (`20_memory.md` R51), the canonical form,
which the reads determine (log 2), the state after reset (`10_state.md` R36), and the launch of an image
(`70_reset_and_hazards.md` R240). -/

namespace Sys2Proof.Machine

/-! ## The checked accesses (`20_memory.md` R51) -/

theorem memRead_of_range {a : Int} (s : State) (h : 0 ≤ a ∧ a < 256) :
    memRead a s = .ok (s.peek a.toNat) := if_pos h

theorem memWrite_of_range {a : Int} (v : Byte) (s : State) (h : 0 ≤ a ∧ a < 256) :
    memWrite a v s = .ok (s.poke a.toNat v) := if_pos h

theorem memRead_outside {a : Int} (s : State) (h : ¬ (0 ≤ a ∧ a < 256)) :
    memRead a s = .error (.addressMem a) := if_neg h

theorem memWrite_outside {a : Int} (v : Byte) (s : State) (h : ¬ (0 ≤ a ∧ a < 256)) :
    memWrite a v s = .error (.addressMem a) := if_neg h

/-- Settles O45: the two accesses make one test of the address, and the write is one poke. -/
theorem memoryAccessIsChecked : Obligations.MemoryAccessIsChecked := by
  refine fun s a v => ⟨fun hlow hhigh => ?_, fun hout => ?_⟩
  · have hrange : 0 ≤ a ∧ a < 256 := ⟨hlow, by omega⟩
    exact ⟨memRead_of_range s hrange, _, memWrite_of_range v s hrange, s.peek_poke_self _ v,
      fun _ hk => s.peek_poke_ne v hk, fun _ => rfl, rfl, rfl, rfl, rfl, rfl⟩
  · have houtside : ¬ (0 ≤ a ∧ a < 256) := by omega
    exact ⟨memRead_outside s houtside, memWrite_outside v s houtside⟩

/-! ## The canonical form (log 2) -/

namespace Memory

variable {k l : Nat} {u w : Byte} {m n : Memory}

theorem read_cons_self : read ((k, u) :: m) k = u := if_pos rfl

theorem read_cons_of_ne {a : Nat} (h : k ≠ a) : read ((k, u) :: m) a = read m a := if_neg h

/-- A cell that is listed reads as no unlisted one does, so a memory that reads the same lists one there or
before. -/
theorem head_le_of_read_eq (hm : wf ((k, u) :: m) = true) (hn : wf ((l, w) :: n) = true)
    (h : ∀ a < 256, read ((k, u) :: m) a = read ((l, w) :: n) a) : l ≤ k := by
  obtain ⟨hk, hu, -⟩ := wf_cons.mp hm
  by_contra hlt
  have hread := h k hk
  rw [read_cons_self, read_lt_head hn (by omega)] at hread
  exact hu hread

/-- A memory that reads as the empty one lists no cell. -/
theorem not_read_eq_nil (hm : wf ((k, u) :: m) = true)
    (h : ∀ a < 256, read ((k, u) :: m) a = read [] a) : False := by
  obtain ⟨hk, hu, -⟩ := wf_cons.mp hm
  have hread := h k hk
  rw [read_cons_self] at hread
  exact hu hread

/-- Memories that read the same with the same cell in front read the same without it. -/
theorem tail_read_eq (hm : wf ((k, u) :: m) = true) (hn : wf ((k, w) :: n) = true)
    (h : ∀ a < 256, read ((k, u) :: m) a = read ((k, w) :: n) a) : ∀ a < 256, read m a = read n a := by
  intro a ha
  obtain ⟨-, -, hmlt, -⟩ := wf_cons.mp hm
  obtain ⟨-, -, hnlt, -⟩ := wf_cons.mp hn
  by_cases hka : k = a
  · subst hka
    rw [read_eq_unlisted fun cell hc => (hmlt cell hc).ne',
      read_eq_unlisted fun cell hc => (hnlt cell hc).ne']
  · have hread := h a ha
    rwa [read_cons_of_ne hka, read_cons_of_ne hka] at hread

theorem eq_of_read_eq (hm : wf m = true) (hn : wf n = true) (h : ∀ a < 256, read m a = read n a) :
    m = n := by
  induction m generalizing n with
  | nil =>
    cases n with
    | nil => rfl
    | cons cell n => exact (not_read_eq_nil hn fun a ha => (h a ha).symm).elim
  | cons cell m ih =>
    obtain ⟨k, u⟩ := cell
    cases n with
    | nil => exact (not_read_eq_nil hm h).elim
    | cons cell n =>
      obtain ⟨l, w⟩ := cell
      obtain rfl : k = l :=
        le_antisymm (head_le_of_read_eq hn hm fun a ha => (h a ha).symm) (head_le_of_read_eq hm hn h)
      obtain ⟨hk, -, -, hmrest⟩ := wf_cons.mp hm
      obtain ⟨-, -, -, hnrest⟩ := wf_cons.mp hn
      obtain rfl : u = w := by simpa only [read_cons_self] using h k hk
      rw [ih hmrest hnrest (tail_read_eq hm hn h)]

end Memory

/-- Settles O46: by induction, cell by cell from the lowest address on. -/
theorem canonicalMemoryIsDeterminedByItsReads : Obligations.CanonicalMemoryIsDeterminedByItsReads :=
  fun _ _ => Memory.eq_of_read_eq

/-! ## Reset (`10_state.md` R36) -/

theorem State.reset_getReg_of_ne : ∀ q : RegIndex, q ≠ 7 → State.reset.getReg q = 0x00 := by decide

theorem State.reset_getReg_sp : State.reset.getReg 7 = 0xF4 := rfl

/-- Settles O47: reset writes every field, and the memory is MEM_INIT cell by cell. -/
theorem resetLeavesTheSpecifiedState : Obligations.ResetLeavesTheSpecifiedState := fun c =>
  ⟨State.reset_getReg_of_ne, State.reset_getReg_sp, rfl, rfl, rfl, rfl, rfl, fun _ => State.resetWith_peek c⟩

/-- Settles O48: the written zeros and the empty list are canonical and read the same. -/
theorem resetIsTheDefaultReset : Obligations.ResetIsTheDefaultReset := by
  have hmem : Memory.ofInit Config.engine.memInit = [] :=
    Memory.eq_of_read_eq (Memory.wf_ofInit _) rfl fun a ha => Memory.read_ofInit _ ha
  rw [Obligations.ResetIsTheDefaultReset, State.resetWith, hmem]
  rfl

/-! ## The launch (`70_reset_and_hazards.md` R240) -/

/-- Settles O50: `load` writes the image over MEM_INIT, and `start` writes RS alone. -/
theorem launchStartsTheImageFromReset : Obligations.LaunchStartsTheImageFromReset := by
  refine fun c image before hlen => ⟨_, launch_eq c before hlen, rfl, rfl, rfl, rfl, rfl,
    State.reset_getReg_of_ne, State.reset_getReg_sp, fun i hi => ?_, fun a ha hlt => ?_⟩
  · exact Memory.read_image_of_lt _ hi
  · exact (Memory.read_image_of_length_le _ ha).trans (State.resetWith_peek c hlt)

end Sys2Proof.Machine
end

section
/-! PROOFS. The spec's own labels: the codes and info of the causes (`60_exceptions.md` R200) and the byte
layout of FL (`10_state.md` R28). -/

namespace Sys2Proof.Machine

/-- Settles O29: the tables of the causes, row by row. -/
theorem causesHaveTheirCodesAndInfo : Obligations.CausesHaveTheirCodesAndInfo :=
  ⟨rfl, rfl, rfl, rfl, fun _ => ⟨rfl, rfl⟩, fun _ => ⟨rfl, rfl⟩, ⟨rfl, rfl⟩, fun _ => ⟨rfl, rfl⟩,
    fun _ => ⟨rfl, rfl⟩⟩

theorem Flags.toByte_lt (f : Flags) : f.toByte.toNat < 2 ^ 3 := by cases f <;> decide

/-- FL as a byte has no bit but the three of its layout. -/
theorem Flags.toByte_getLsbD_of_ge (f : Flags) {i : Nat} (hi : 3 ≤ i) : f.toByte.getLsbD i = false :=
  Nat.testBit_lt_two_pow (f.toByte_lt.trans_le (Nat.pow_le_pow_right two_pos hi))

/-- Settles O58: the three bits by the value of FL, the others by its bound. -/
theorem flagsByteLayout : Obligations.FlagsByteLayout := by
  intro f
  have hbits : (f.toByte.getLsbD 0 = true ↔ f = .equal) ∧ (f.toByte.getLsbD 1 = true ↔ f = .greater) ∧
      (f.toByte.getLsbD 2 = true ↔ f = .less) := by
    cases f <;> decide
  obtain ⟨hequal, hgreater, hless⟩ := hbits
  exact ⟨hequal, hgreater, hless, fun i hi _ => f.toByte_getLsbD_of_ge hi⟩

end Sys2Proof.Machine
end
